-- ==== Sys2Proof/Word.lean ====
section
/-! DEFINITION. The types of bytes, words, counters and blocks (spec/00_scope.md R5, R8, R9). -/

namespace Sys2Proof

/-- A byte, an unsigned integer from 0 to 255 (R8). -/
abbrev Byte := BitVec 8

/-- A word, an unsigned integer from 0 to 2^32 - 1; bit 31 is the most significant (R5 `WORD`, R8). -/
abbrev Word := BitVec 32

/-- The 64-bit block counter as a number (R5 `CTR_BITS`, R25). -/
abbrev Counter := BitVec 64

/-- A file of `n` words, index 0 first (R9). -/
abbrev Words (n : Nat) := Vector Word n

/-- A sequence of 64 bytes: one keystream block, or the scratch buffer (R5 `BlockSize`). -/
abbrev Block := Vector Byte 64

end Sys2Proof
end

