-- ==== Sys2Proof/Syntax.lean ====
section
/-! DEFINITION. The commands of the core, one constructor per row of spec/opcode_table.json (spec/30_encoding.md R70 to R74). -/

namespace Sys2Proof

/-- A command. Every operand but `rounds` is an implied register (R74), so none stands here. -/
inductive Instr where
  /-- ENCRYPT (R134): `rounds` is the unsigned integer in bits 15:8 of the command word (R73). -/
  | encrypt (rounds : Nat)
  /-- DECRYPT (R135): no immediate, 20 rounds. -/
  | decrypt
deriving DecidableEq, Repr

end Sys2Proof
end

