-- ==== Sys2Proof/WellFormed.lean ====
section
/-! DEFINITION. Which terms of `Instr` have a command word: the field ROUNDS holds 0 to 255 (spec/30_encoding.md R71, R72). -/

namespace Sys2Proof

/-- A command is well-formed when its immediate fits its 8-bit field. The decoder accepts all 256 values; which of them are
legal round counts is VALIDATE's business (R72, R73). -/
def Instr.wf : Instr → Bool
  | .encrypt rounds => decide (rounds < 256)
  | .decrypt => true

end Sys2Proof
end

