-- ==== Sys2Proof/Decode.lean ====
section
/-! DEFINITION. The command word: the decoder, total on every word and refusing by name, and the encoder
(spec/30_encoding.md R70 to R78). -/

namespace Sys2Proof

/-- Why a word spells no command (R76). The core reports all three alike, as status code 3 (R153). -/
inductive IllegalWord where
  /-- A bit of RSV1 (31:16) or RSV0 (7:4) is set. -/
  | reservedBits
  /-- OP is 0x0 or 0x3 to 0xF. -/
  | undefinedOp (op : BitVec 4)
  /-- OP is 0x2 (DECRYPT) and the ROUNDS field is not 0. -/
  | decryptRounds (rounds : Byte)
deriving DecidableEq, Repr

/-- The answer of `Decode` (R75). -/
inductive Decoded where
  | instr (i : Instr)
  | illegal (why : IllegalWord)
deriving DecidableEq, Repr

/-- Field RSV1, bits 31:16 (R71). -/
def fieldRsv1 (w : Word) : BitVec 16 := w.extractLsb' 16 16

/-- Field ROUNDS, bits 15:8 (R71). -/
def fieldRounds (w : Word) : Byte := w.extractLsb' 8 8

/-- Field RSV0, bits 7:4 (R71). -/
def fieldRsv0 (w : Word) : BitVec 4 := w.extractLsb' 4 4

/-- Field OP, bits 3:0 (R71). -/
def fieldOp (w : Word) : BitVec 4 := w.extractLsb' 0 4

/-- `Decode(w)` (R75): a total function of the word that reads no state. -/
def decode (w : Word) : Decoded :=
  if fieldRsv1 w ≠ 0 ∨ fieldRsv0 w ≠ 0 then .illegal .reservedBits
  else if fieldOp w = 0x1 then .instr (.encrypt (fieldRounds w).toNat)
  else if fieldOp w = 0x2 then
    if fieldRounds w = 0 then .instr .decrypt else .illegal (.decryptRounds (fieldRounds w))
  else .illegal (.undefinedOp (fieldOp w))

/-- The command word of a command (R72, R82): `0x00000001 + 256 * rounds`, or `0x00000002`. -/
def encode : Instr → Word
  | .encrypt rounds => BitVec.ofNat 32 (0x00000001 + 256 * rounds)
  | .decrypt => 0x00000002

/-- The instruction this decoder reads from a word of `nbits` bits numbered as spec/opcode_table.json numbers them. A command
is one 32-bit word and is never in memory (R52, R70), so the word is the number itself; a longer number spells no command. -/
def decodeTableWord (nbits w : Nat) : Option Instr :=
  if w % 2 ^ nbits < 2 ^ 32 then
    match decode (BitVec.ofNat 32 (w % 2 ^ nbits)) with
    | .instr i => some i
    | .illegal _ => none
  else none

end Sys2Proof
end

