-- ==== Sys2Proof/Config.lean ====
section
/-! DEFINITION. What an implementation fixes, and the free values (spec/00_scope.md R5, R6). -/

namespace Sys2Proof

/-- The value R6 and D2 suggest for the open parameter `ADDR_BITS`. Only `State.reset` uses it; the parameter itself is
`State.addrBits` (log 1). -/
abbrev Config.suggestedAddrBits : Nat := 64

/-- `REG_BASE` (R6, U11), where a platform maps the core's registers: an open parameter without a value. No rule depends on
it, and no definition uses it. DESIGN CHOICE, safe, log 4. -/
opaque Config.regBase : Nat

/-- `KeySize`, in bytes (R5). -/
abbrev Config.keySize : Nat := 32

/-- `NonceSize`, in bytes (R5). -/
abbrev Config.nonceSize : Nat := 8

/-- `BlockSize`, in bytes (R5). -/
abbrev Config.blockSize : Nat := 64

/-- What a byte of memory reads as that nothing has written: its content is the platform's (R45).
DESIGN CHOICE, unsafe for a claim about memory that nothing wrote, log 5. -/
def Config.unlistedByte : Byte := 0

/-- The free values: nothing in Lean can evaluate one. They stand for the content of the registers that R43 leaves
unspecified while no command runs (U8 `any value`). DESIGN CHOICE in form, safe, log 7. -/
opaque Config.freeValue : Nat → Nat

end Sys2Proof
end

