-- ==== Sys2Proof/Machine/State.lean ====
section
/-! DEFINITION. The machine's state as plain data, its faults and refusals, and the state after reset
(spec/10_state.md R20 to R46, spec/20_memory.md R50). -/

namespace Sys2Proof.Machine

/-- Byte-addressed memory (R42, R50): the listed bytes at strictly rising addresses; every other address reads as
`Config.unlistedByte`. -/
abbrev Memory := List Host.Cell

/-- A run of byte addresses the platform lets the core access, a piece of `MemAdmit` (R6, R58). -/
structure Region where
  base : Nat
  size : Nat
deriving DecidableEq, Repr

/-- The kind of the running command, register `OPK` (R27): ENC is 0, DEC is 1. -/
inductive CmdKind where
  | enc
  | dec
deriving DecidableEq, Repr

/-- Where the sequencer stands, register `PHASE` (R27). Both `issued` and `run` are PHASE = RUN: a command has passed
validation and has not finished. DEDUCED, safe, log 13. -/
inductive Phase where
  /-- PHASE = IDLE: no command runs. -/
  | idle
  /-- PHASE = RUN with LATCH still to be performed; `rounds` is the value ISSUE hands to LATCH (R126). -/
  | issued (rounds : Nat)
  /-- PHASE = RUN in the chunk loop NEXT (R129). -/
  | run
deriving DecidableEq, Repr

/-- Field CODE of STATUS (R38). -/
inductive StatusCode where
  | ok
  | invalidLength
  | invalidParameter
  | illegalCommand
deriving DecidableEq, Repr

/-- The three conditions a command can end in besides success (R150 to R153). -/
inductive Condition where
  | invalidLength
  | invalidParameter
  | illegalCommand
deriving DecidableEq, Repr

/-- The fifteen host-visible registers, in the order of their numbers 0 to 14 (R31). -/
inductive HostReg where
  | cmd | status | outAddr | outLen | inAddr | inLen | nonceAddr | nonceLen | keyAddr | keyLen | ctrIn | ctrOut
  | keySize | nonceSize | blockSize
deriving DecidableEq, Repr

/-- One pending action of the world outside the core, host interface (R41, R66, R79, R82, R170, R185).
DESIGN CHOICE, safe, log 11. -/
inductive Event where
  /-- `WR reg, v`: the host writes a register; a write of CMD runs the whole command (R41, R180). -/
  | wr (reg : HostReg) (v : Nat)
  /-- `RD reg`: the host reads a register (R41, R79). -/
  | rd (reg : HostReg)
  /-- `MOV CTR_IN, CTR_OUT`: the host copies the returned counter (R79). -/
  | mov
  /-- The host's write of CMD seen step by step: only ISSUE happens in this step, the sequencer's steps follow (R126, R188;
  log 10). -/
  | issue (w : Word)
  /-- Nothing arrives during the next step of the sequencer. -/
  | tick
  /-- The host or another agent stores a byte (R66, R185). -/
  | store (addr : Nat) (b : Byte)
  /-- The host or another agent loads a byte (R66, R185). -/
  | load (addr : Nat)
  /-- The platform resets the core (R170). -/
  | reset
deriving DecidableEq, Repr

/-- The registers of the Keystream Engine (R21 to R26, R28). None is host-visible. -/
structure Engine where
  /-- Working state `x[0..15]` (R21). -/
  x  : Words 16
  /-- Copy of the initial state `j[0..15]` (R22). -/
  j  : Words 16
  /-- Key words `k[0..7]` (R23). -/
  k  : Words 8
  /-- Nonce words `n[0..1]` (R24). -/
  n  : Words 2
  /-- Counter words: `t[0]` low, `t[1]` high (R25). -/
  t  : Words 2
  /-- Round count (R26). -/
  rc : BitVec 5
  /-- Double-round index (R26). -/
  dr : BitVec 4
  /-- Keystream block `KS[0..63]` (R28). -/
  ks : Block
deriving DecidableEq, Repr

/-- The registers of the Stream Combiner (R27, R29). None is host-visible. OFF, LEN, OA and IA are `ADDR_BITS` wide. -/
structure Combiner where
  phase   : Phase
  opk     : CmdKind
  /-- Byte offset of the next chunk. -/
  off     : Nat
  /-- Message length, IN_LEN as sampled by LATCH. -/
  len     : Nat
  /-- OUT_ADDR as sampled by LATCH. -/
  oa      : Nat
  /-- IN_ADDR as sampled by LATCH. -/
  ia      : Nat
  /-- Scratch buffer `SCRATCH[0..63]` (R29). -/
  scratch : Block
deriving DecidableEq, Repr

/-- The host-visible registers that hold a value (R31 to R39). The address and length registers are `ADDR_BITS` wide. KEYSIZE,
NONCESIZE and BLOCKSIZE are hard-wired (R40): `readReg` answers their constants and `writeReg` discards writes to them, so they
have no field (log 20). STATUS is held as its one field CODE, whose four values are all it can hold (R38). -/
structure HostRegs where
  cmd       : Word
  status    : StatusCode
  outAddr   : Nat
  outLen    : Nat
  inAddr    : Nat
  inLen     : Nat
  nonceAddr : Nat
  nonceLen  : Nat
  keyAddr   : Nat
  keyLen    : Nat
  ctrIn     : Counter
  ctrOut    : Counter
deriving DecidableEq, Repr

/-- The state of the machine (R20). `addrBits` and `regions` are the open parameters of R6 held as data (log 1, log 2);
`events`, `hostRead` and `fresh` are the MODEL's own fields and no register of the core (log 11, log 22, log 7). -/
structure State where
  engine   : Engine
  comb     : Combiner
  regs     : HostRegs
  mem      : Memory
  /-- `ADDR_BITS` (R6), the width of addresses and lengths; no step changes it. -/
  addrBits : Nat
  /-- The platform's `MemAdmit` (R6, R58); no step changes it. -/
  regions  : List Region
  /-- Pending actions of host, platform and other agents, oldest first. -/
  events   : List Event
  /-- What the host's last read or load returned. -/
  hostRead : Nat
  /-- Index of the next unused free value. -/
  fresh    : Nat
deriving DecidableEq, Repr

/-- Why the machine stops. -/
inductive Fault where
  /-- The core is stuck in PHASE = RUN: LATCH, FULLSTEP or PARTSTEP needs an address outside `MemAdmit`, so the step is not
  enabled, the command never ends and STATUS is not written (R58, R168, U3). Raised by `memRead` and `memWrite`. Safe. -/
  | notAdmitted (addr : Nat)
deriving DecidableEq, Repr

/-- Situations the model gives no meaning. -/
inductive Refusal where
  /-- An instruction of the opcode table without a meaning; `exec` uses it for none. Safe. -/
  | notModelled (mnemonic : String)
  /-- A buffer of a validated command runs past the top of the address space (R59, U4). Raised by `issueCommand`, and by
  `memRead` and `memWrite` in states no run reaches. Safe. -/
  | bufferWraps
  /-- The output buffer of a validated command overlaps the input buffer other than exactly, or the key or nonce buffer (R61,
  U5). Raised by `issueCommand`. Safe. -/
  | bufferOverlap
  /-- A command is issued while PHASE = RUN (R126, R180, U7). Raised by `issueCommand` and by `deliver`. Safe. -/
  | commandWhileRunning
  /-- The host accesses a register of the core while PHASE = RUN (R180, U7). Raised by `deliver`. Safe. -/
  | hostAccessWhileRunning
  /-- Another agent writes a key, nonce or input byte, or touches an output byte, of the running command (R66, R176, U6).
  Raised by `agentAccess`. Safe. -/
  | race (addr : Nat)
  /-- The host writes a value that does not fit the register's width (R41). Raised by `writeReg` and `hostWrite`. Safe. -/
  | valueTooWide (reg : HostReg)
  /-- Another agent's store or load names an address that is not below `2^ADDR_BITS`, so there is no such byte (R42, R50).
  Raised by `agentAccess`. DEDUCED, safe, log 31. -/
  | noSuchAddress (addr : Nat)
deriving DecidableEq, Repr

/-- Sixty-four zero bytes, `0^64` (R9). -/
def zeroBlock : Block := Vector.replicate 64 0

/-- The engine right after reset: every register is unspecified (R45), and holds 0. DESIGN CHOICE, unsafe, log 6. -/
def Engine.reset : Engine where
  x  := Vector.replicate 16 0
  j  := Vector.replicate 16 0
  k  := Vector.replicate 8 0
  n  := Vector.replicate 2 0
  t  := Vector.replicate 2 0
  rc := 0
  dr := 0
  ks := zeroBlock

/-- The combiner right after reset: PHASE = IDLE and SCRATCH = 0^64 (R45); the other registers are unspecified and hold 0.
DESIGN CHOICE for those, unsafe, log 6. -/
def Combiner.reset : Combiner where
  phase   := .idle
  opk     := .enc
  off     := 0
  len     := 0
  oa      := 0
  ia      := 0
  scratch := zeroBlock

/-- The host-visible registers right after reset: all 0 (R45). -/
def HostRegs.reset : HostRegs where
  cmd       := 0
  status    := .ok
  outAddr   := 0
  outLen    := 0
  inAddr    := 0
  inLen     := 0
  nonceAddr := 0
  nonceLen  := 0
  keyAddr   := 0
  keyLen    := 0
  ctrIn     := 0
  ctrOut    := 0

/-- The machine right after reset (R45, R170). Memory lists nothing (log 5), `ADDR_BITS` has its suggested value (log 1), every
address is admitted (log 2), nothing is pending (log 11). -/
def State.reset : State where
  engine   := Engine.reset
  comb     := Combiner.reset
  regs     := HostRegs.reset
  mem      := []
  addrBits := Config.suggestedAddrBits
  regions  := [⟨0, 2 ^ Config.suggestedAddrBits⟩]
  events   := []
  hostRead := 0
  fresh    := 0

end Sys2Proof.Machine
end

