-- ==== Sys2Proof/Machine/Flags.lean ====
section
/-! DEFINITION. There is no flag register (spec/10_state.md R30): the comparisons the hardware makes, evaluated where they are
used, and the one stored outcome, STATUS (R38, R155). -/

namespace Sys2Proof.Machine

/-- The carry of CTRINC: the low counter word has just wrapped past 2^32 - 1 (R30, R115). It is stored nowhere. -/
def lowWordWrapped (t0 : Word) : Bool := t0 == 0

/-- `dr < rc / 2`, the test of the round loop (R30, R105). -/
def moreDoubleRounds (dr : BitVec 4) (rc : BitVec 5) : Bool := decide (dr.toNat < rc.toNat / 2)

/-- `LEN - OFF >= 64` (R30, R129). The unsigned subtraction never wraps, since `OFF <= LEN` (R95). -/
def fullChunkLeft (len off : Nat) : Bool := decide (64 ≤ len - off)

/-- `LEN - OFF > 0` (R30, R129). -/
def bytesLeft (len off : Nat) : Bool := decide (0 < len - off)

/-- The number of a status code, bits 1:0 of STATUS (R38, R155). -/
def statusNumber : StatusCode → BitVec 2
  | .ok => 0
  | .invalidLength => 1
  | .invalidParameter => 2
  | .illegalCommand => 3

/-- STATUS as a host reads it: CODE in bits 1:0, bits 31:2 are 0 (R38). -/
def statusWord (c : StatusCode) : Word := (statusNumber c).setWidth 32

/-- `code(E)` (R154). -/
def conditionCode : Condition → StatusCode
  | .invalidLength => .invalidLength
  | .invalidParameter => .invalidParameter
  | .illegalCommand => .illegalCommand

end Sys2Proof.Machine
end

