-- ==== Sys2Proof/Machine/WordOps.lean ====
section
/-! DEFINITION. The 32-bit word operations and the 64-byte exclusive or (spec/40_word_ops.md R90 to R94,
spec/43_stream_combiner.md R133). -/

namespace Sys2Proof.Machine

/-- The file of `n` entries whose entry `i` is `f i` (R9). -/
def vecOf {α : Type} (n : Nat) (f : Fin n → α) : Vector α n := ⟨⟨List.ofFn f⟩, by simp⟩

/-- ADD32 (R90): addition modulo 2^32. -/
def add32 (a b : Word) : Word := a + b

/-- XOR32 (R91). -/
def xor32 (a b : Word) : Word := a ^^^ b

/-- ROTL32 (R92): circular left rotation. Amounts of 32 or more are outside its domain (U14). -/
def rotl32 (v : Word) (n : Fin 32) : Word := v <<< n.val ||| v >>> (32 - n.val)

/-- LE32 (R93): `b0` is the byte at the lowest address and becomes bits 7:0. -/
def le32 (b0 b1 b2 b3 : Byte) : Word := b3 ++ b2 ++ b1 ++ b0

/-- `LE32at(B, i)` (R93): word `i` of a byte sequence. -/
def le32At (bs : List Byte) (i : Nat) : Word :=
  le32 (bs.getD (4 * i) 0) (bs.getD (4 * i + 1) 0) (bs.getD (4 * i + 2) 0) (bs.getD (4 * i + 3) 0)

/-- The first `n` little-endian words of a byte sequence (R23, R24, R51). -/
def wordsLE (n : Nat) (bs : List Byte) : Words n := vecOf n fun i => le32At bs i

/-- LE32INV (R94): the four bytes of a word, least significant first. -/
def le32Inv (w : Word) : Vector Byte 4 :=
  #v[w.extractLsb' 0 8, w.extractLsb' 8 8, w.extractLsb' 16 8, w.extractLsb' 24 8]

/-- Sixteen words as 64 bytes, word 0 first (R51, R114). -/
def serializeWords (x : Words 16) : Block :=
  vecOf 64 fun m => (le32Inv x[m.val / 4])[m.val % 4]

/-- XOR64 (R133). -/
def xor64 (a b : Block) : Block := vecOf 64 fun i => a[i] ^^^ b[i]

/-- A sequence of at most 64 bytes as a block, zero-padded (R131). -/
def padBlock (bs : List Byte) : Block := vecOf 64 fun i => bs.getD i 0

end Sys2Proof.Machine
end

