-- ==== Sys2Proof/Machine/Rounds.lean ====
section
/-! DEFINITION. The round-mixing network on the sixteen working words (spec/41_round_network.md R100 to R106). -/

namespace Sys2Proof.Machine

/-- The operands or results of a quarter-round, in the order `(a, b, c, d)` (R100). -/
structure Quad where
  a : Word
  b : Word
  c : Word
  d : Word
deriving DecidableEq, Repr

/-- QR (R100): each statement reads the results of those before it. -/
def quarterRound (q : Quad) : Quad :=
  let b := xor32 q.b (rotl32 (add32 q.a q.d) 7)
  let c := xor32 q.c (rotl32 (add32 b q.a) 9)
  let d := xor32 q.d (rotl32 (add32 c b) 13)
  let a := xor32 q.a (rotl32 (add32 d c) 18)
  ⟨a, b, c, d⟩

/-- An index group `(p, q, r, s)` (R101). -/
structure Group where
  p : Fin 16
  q : Fin 16
  r : Fin 16
  s : Fin 16
deriving DecidableEq, Repr

/-- QR applied to registers `(x[p], x[q], x[r], x[s])` (R100). -/
def applyGroup (x : Words 16) (g : Group) : Words 16 :=
  let y := quarterRound ⟨x[g.p], x[g.q], x[g.r], x[g.s]⟩
  (((x.set g.p y.a).set g.q y.b).set g.r y.c).set g.s y.d

/-- Groups C0 to C3 (R101). PRESUMED (the spec marks the table as general knowledge, G3), unsafe, log 19. -/
def columnGroups : List Group := [⟨0, 4, 8, 12⟩, ⟨5, 9, 13, 1⟩, ⟨10, 14, 2, 6⟩, ⟨15, 3, 7, 11⟩]

/-- Groups W0 to W3 (R101). PRESUMED (the spec marks the table as general knowledge, G3), unsafe, log 19. -/
def rowGroups : List Group := [⟨0, 1, 2, 3⟩, ⟨5, 6, 7, 4⟩, ⟨10, 11, 8, 9⟩, ⟨15, 12, 13, 14⟩]

/-- COLUMNROUND (R102). -/
def columnRound (x : Words 16) : Words 16 := columnGroups.foldl applyGroup x

/-- ROWROUND (R103). -/
def rowRound (x : Words 16) : Words 16 := rowGroups.foldl applyGroup x

/-- DOUBLEROUND (R104): the column round first. -/
def doubleRound (x : Words 16) : Words 16 := rowRound (columnRound x)

/-- The loop of ROUNDS (R105): while `dr < rc / 2`, a double-round; `fuel` bounds the number of turns. -/
def roundLoop : Nat → Engine → Engine
  | 0, e => e
  | fuel + 1, e =>
    if moreDoubleRounds e.dr e.rc then roundLoop fuel { e with x := doubleRound e.x, dr := e.dr + 1 } else e

/-- ROUNDS (R105). `rc` has 5 bits, so the loop turns at most 15 times and the bound is never felt. -/
def rounds (e : Engine) : Engine := roundLoop 16 { e with dr := 0 }

end Sys2Proof.Machine
end

