-- ==== Sys2Proof/Machine/KeystreamEngine.lean ====
section
/-! DEFINITION. The keystream engine: it acts on the engine's registers alone (spec/42_keystream_engine.md R110 to R118). -/

namespace Sys2Proof.Machine

/-- The four constant words, `expand 32-byte k` (R110). PRESUMED (the spec marks the numbers as general knowledge, G1),
unsafe, log 19. -/
def constants : Words 4 := #v[0x61707865, 0x3320646E, 0x79622D32, 0x6B206574]

/-- The sixteen words of the initial state (R111). PRESUMED (the spec marks the positions as general knowledge, G2), unsafe,
log 19. -/
def initialState (k : Words 8) (n t : Words 2) : Words 16 :=
  #v[constants[0], k[0], k[1], k[2],
     k[3], constants[1], n[0], n[1],
     t[0], t[1], constants[2], k[4],
     k[5], k[6], k[7], constants[3]]

/-- INIT (R111). -/
def engineInit (e : Engine) : Engine := { e with x := initialState e.k e.n e.t }

/-- SAVE (R112). -/
def engineSave (e : Engine) : Engine := { e with j := e.x }

/-- The sums of FEEDFORWARD (R113). -/
def addWords (x j : Words 16) : Words 16 := vecOf 16 fun i => add32 x[i] j[i]

/-- FEEDFORWARD (R113). -/
def feedforward (e : Engine) : Engine := { e with x := addWords e.x e.j }

/-- SERIALIZE (R114). -/
def serialize (e : Engine) : Engine := { e with ks := serializeWords e.x }

/-- The counter words after CTRINC (R115): the low word wraps into the high word, and the whole counter wraps silently. -/
def nextCounter (t : Words 2) : Words 2 :=
  let t0 := add32 t[0] 1
  if lowWordWrapped t0 then #v[t0, add32 t[1] 1] else #v[t0, t[1]]

/-- CTRINC (R115). -/
def ctrInc (e : Engine) : Engine := { e with t := nextCounter e.t }

/-- BLOCK (R116). -/
def block (e : Engine) : Engine :=
  ctrInc (serialize (feedforward (rounds (engineSave (engineInit e)))))

/-- The counter words of a counter (R25, R36): the low word first. -/
def counterWords (c : Counter) : Words 2 := #v[c.extractLsb' 0 32, c.extractLsb' 32 32]

/-- The counter `{t[1], t[0]}` (R25, R39). -/
def counterOf (t : Words 2) : Counter := t[1] ++ t[0]

end Sys2Proof.Machine
end

