-- ==== Sys2Proof/Machine/Ops.lean ====
section
/-! DEFINITION. The named operations over memory and registers, ending a command in an error, leaving registers unspecified,
and the reset event (spec/20_memory.md R50 to R59, spec/10_state.md R40 to R46, spec/60_exceptions.md R154,
spec/70_reset_and_hazards.md R170). -/

namespace Sys2Proof.Machine

/-- Sequencing of statements (R10): go on with the next statement unless the machine stops. -/
def andThen {α β : Type} (o : Host.Outcome α Fault Refusal) (f : α → Host.Outcome β Fault Refusal) :
    Host.Outcome β Fault Refusal :=
  match o with
  | .next a => f a
  | .fault r => .fault r
  | .refused r => .refused r

/-- The state an outcome goes on with, where there is one. -/
def nextState {α : Type} (o : Host.Outcome α Fault Refusal) : Option α :=
  match o with
  | .next a => some a
  | .fault _ => none
  | .refused _ => none

/-! ### Bytes of memory -/

/-- The byte at an address (R50). -/
def readByte : Memory → Nat → Byte
  | [], _ => Config.unlistedByte
  | (k, v) :: rest, a => if a = k then v else readByte rest a

/-- Sets the byte at one address and changes no other (R57); the result is again in canonical form. -/
def writeByte : Memory → Nat → Byte → Memory
  | [], a, b => if b = Config.unlistedByte then [] else [(a, b)]
  | (k, v) :: rest, a, b =>
    if a < k then
      if b = Config.unlistedByte then (k, v) :: rest else (a, b) :: (k, v) :: rest
    else if a = k then
      if b = Config.unlistedByte then rest else (a, b) :: rest
    else (k, v) :: writeByte rest a b

/-- The `n` bytes from address `a` up, in ascending order (R56). -/
def readBytes (m : Memory) : Nat → Nat → List Byte
  | _, 0 => []
  | a, n + 1 => readByte m a :: readBytes m (a + 1) n

/-- Writes the bytes of a sequence at `a`, `a + 1`, ... (R57). -/
def writeBytes (m : Memory) : Nat → List Byte → Memory
  | _, [] => m
  | a, b :: bs => writeBytes (writeByte m a b) (a + 1) bs

/-- The keys of a memory rise strictly above `low`, and no listed byte equals what an unlisted address reads as. -/
def wfAbove : Nat → Memory → Bool
  | _, [] => true
  | low, (k, v) :: rest => decide (low ≤ k) && decide (v ≠ Config.unlistedByte) && wfAbove (k + 1) rest

/-- The canonical form of memory. -/
def Memory.wf (m : Memory) : Bool := wfAbove 0 m

/-- Every listed address is below `2^w`, that is, exists in an address space of `w` bits (R50). -/
def Memory.fits (w : Nat) (m : Memory) : Bool := m.all fun cell => decide (cell.1 < 2 ^ w)

/-! ### Admission and the accesses of the core -/

/-- `MemAdmit(addr)` (R58). -/
def admits (rs : List Region) (a : Nat) : Bool :=
  rs.any fun r => decide (r.base ≤ a) && decide (a < r.base + r.size)

/-- The first address of a run of `n` that is not admitted. -/
def firstUnadmitted (rs : List Region) : Nat → Nat → Option Nat
  | _, 0 => none
  | a, n + 1 => if admits rs a then firstUnadmitted rs (a + 1) n else some a

/-- Goes on with `k` when an access of `n` bytes at `addr` is defined in an address space of `w` bits: below 2^ADDR_BITS and
admitted (R56 to R59). -/
def guardAccess {α : Type} (w : Nat) (rs : List Region) (addr n : Nat) (k : Host.Outcome α Fault Refusal) :
    Host.Outcome α Fault Refusal :=
  if 2 ^ w < addr + n then .refused .bufferWraps
  else
    match firstUnadmitted rs addr n with
    | some a => .fault (.notAdmitted a)
    | none => k

/-- `MemRead(addr, n)` (R56). -/
def memRead (s : State) (addr n : Nat) : Host.Outcome (List Byte) Fault Refusal :=
  guardAccess s.addrBits s.regions addr n (.next (readBytes s.mem addr n))

/-- `MemWrite(addr, |B|, B)` (R57). -/
def memWrite (s : State) (addr : Nat) (bs : List Byte) : Host.Outcome State Fault Refusal :=
  guardAccess s.addrBits s.regions addr bs.length (.next { s with mem := writeBytes s.mem addr bs })

/-! ### Host-visible registers -/

/-- The number of a register (R31). -/
def regNumber : HostReg → Nat
  | .cmd => 0 | .status => 1 | .outAddr => 2 | .outLen => 3 | .inAddr => 4 | .inLen => 5 | .nonceAddr => 6
  | .nonceLen => 7 | .keyAddr => 8 | .keyLen => 9 | .ctrIn => 10 | .ctrOut => 11 | .keySize => 12 | .nonceSize => 13
  | .blockSize => 14

/-- The width of a register in bits, where addresses and lengths have `w` (R31). -/
def regWidth (w : Nat) : HostReg → Nat
  | .cmd | .status | .keySize | .nonceSize | .blockSize => 32
  | .outAddr | .outLen | .inAddr | .inLen | .nonceAddr | .nonceLen | .keyAddr | .keyLen => w
  | .ctrIn | .ctrOut => 64

/-- Whether the host may only read a register: numbers 1 and 11 to 14 (R31, R41). -/
def readOnly : HostReg → Bool
  | .status | .ctrOut | .keySize | .nonceSize | .blockSize => true
  | .cmd | .outAddr | .outLen | .inAddr | .inLen | .nonceAddr | .nonceLen | .keyAddr | .keyLen | .ctrIn => false

/-- The current value of a register (R41); the three constants read as 32, 8 and 64 at all times (R40). -/
def readReg (g : HostRegs) : HostReg → Nat
  | .cmd => g.cmd.toNat
  | .status => (statusWord g.status).toNat
  | .outAddr => g.outAddr
  | .outLen => g.outLen
  | .inAddr => g.inAddr
  | .inLen => g.inLen
  | .nonceAddr => g.nonceAddr
  | .nonceLen => g.nonceLen
  | .keyAddr => g.keyAddr
  | .keyLen => g.keyLen
  | .ctrIn => g.ctrIn.toNat
  | .ctrOut => g.ctrOut.toNat
  | .keySize => 32
  | .nonceSize => 8
  | .blockSize => 64

/-- Stores a value that fits in a register the host may write, and ignores a write of a read-only one (R41). What a write of
CMD starts is `hostWrite`'s. -/
def storeReg (g : HostRegs) (r : HostReg) (v : Nat) : HostRegs :=
  match r with
  | .cmd => { g with cmd := BitVec.ofNat 32 v }
  | .outAddr => { g with outAddr := v }
  | .outLen => { g with outLen := v }
  | .inAddr => { g with inAddr := v }
  | .inLen => { g with inLen := v }
  | .nonceAddr => { g with nonceAddr := v }
  | .nonceLen => { g with nonceLen := v }
  | .keyAddr => { g with keyAddr := v }
  | .keyLen => { g with keyLen := v }
  | .ctrIn => { g with ctrIn := BitVec.ofNat 64 v }
  | .status | .ctrOut | .keySize | .nonceSize | .blockSize => g

/-- A host write of a register other than CMD (R41): ignored for a read-only register, otherwise the value must fit. -/
def writeReg (r : HostReg) (v : Nat) (s : State) : Host.Outcome State Fault Refusal :=
  if readOnly r || decide (v < 2 ^ regWidth s.addrBits r) then .next { s with regs := storeReg s.regs r v }
  else .refused (.valueTooWide r)

/-! ### Unspecified registers -/

/-- Whether a command runs (R27). -/
def isIdle (s : State) : Bool := decide (s.comb.phase = .idle)

/-- A free bit vector, address and command kind: the `i`-th of a draw that starts at `d` (U8, log 7). -/
def freeBits (n d i : Nat) : BitVec n := BitVec.ofNat n (Config.freeValue (d + i))
def freeAddr (w d i : Nat) : Nat := Config.freeValue (d + i) % 2 ^ w
def freeKind (d i : Nat) : CmdKind := if Config.freeValue (d + i) % 2 = 0 then .enc else .dec

/-- How many free values one draw of all unspecified registers uses. -/
def freeSlots : Nat := 115

/-- An engine of which nothing is known (R43, R45, U8). -/
def freeEngine (d : Nat) : Engine where
  x  := vecOf 16 fun i => freeBits 32 d i
  j  := vecOf 16 fun i => freeBits 32 d (16 + i)
  k  := vecOf 8 fun i => freeBits 32 d (32 + i)
  n  := vecOf 2 fun i => freeBits 32 d (40 + i)
  t  := vecOf 2 fun i => freeBits 32 d (42 + i)
  rc := freeBits 5 d 44
  dr := freeBits 4 d 45
  ks := vecOf 64 fun i => freeBits 8 d (46 + i)

/-- A combiner that is idle, with `w`-bit addresses and the given scratch buffer, of which nothing else is known (R43, R45,
U8). -/
def freeCombiner (w d : Nat) (scratch : Block) : Combiner where
  phase   := .idle
  opk     := freeKind d 110
  off     := freeAddr w d 111
  len     := freeAddr w d 112
  oa      := freeAddr w d 113
  ia      := freeAddr w d 114
  scratch := scratch

/-- The command has ended: PHASE = IDLE, and the internal registers other than SCRATCH hold values nothing may be said of
(R43, D19, U8). -/
def endCommand (s : State) : State :=
  { s with
    engine := freeEngine s.fresh
    comb := freeCombiner s.addrBits s.fresh s.comb.scratch
    fresh := s.fresh + freeSlots }

/-! ### Ending in an error, and reset -/

/-- `raise E` (R154): STATUS takes the code and PHASE stays IDLE; nothing is saved and control goes nowhere. -/
def raiseCondition (e : Condition) (s : State) : State :=
  { s with regs := { s.regs with status := conditionCode e } }

/-- `raise E` after ISSUE has written OPK, which is unspecified once the command has ended (R43, R154, U8). -/
def raiseFromValidate (e : Condition) (s : State) : State :=
  let s := raiseCondition e s
  { s with comb := { s.comb with opk := freeKind s.fresh 0 }, fresh := s.fresh + 1 }

/-- The reset event (R170): every register takes its value of R45, the unspecified ones a free value; memory is not touched. -/
def resetCore (s : State) : State :=
  { s with
    engine := freeEngine s.fresh
    comb := freeCombiner s.addrBits s.fresh zeroBlock
    regs := HostRegs.reset
    fresh := s.fresh + freeSlots }

end Sys2Proof.Machine
end

