-- ==== Sys2Proof/Machine/Operands.lean ====
section
/-! DEFINITION. The operand forms: implied buffers and their checks (spec/30_encoding.md R74, spec/20_memory.md R50, R59, R61,
spec/43_stream_combiner.md R127). -/

namespace Sys2Proof.Machine

/-- A buffer: a byte address and a length (R50). -/
structure Buffer where
  addr : Nat
  len  : Nat
deriving DecidableEq, Repr

/-- The output buffer operand (R32). -/
def outBuffer (g : HostRegs) : Buffer := ⟨g.outAddr, g.outLen⟩

/-- The input buffer operand (R33). -/
def inBuffer (g : HostRegs) : Buffer := ⟨g.inAddr, g.inLen⟩

/-- The nonce buffer operand (R34). -/
def nonceBuffer (g : HostRegs) : Buffer := ⟨g.nonceAddr, g.nonceLen⟩

/-- The key buffer operand (R35). -/
def keyBuffer (g : HostRegs) : Buffer := ⟨g.keyAddr, g.keyLen⟩

/-- Whether an address lies in a buffer; a buffer of length 0 holds none (R50). -/
def inside (b : Buffer) (a : Nat) : Bool := decide (b.addr ≤ a) && decide (a < b.addr + b.len)

/-- Whether a buffer runs past the top of an address space of `w` bits (R59). -/
def wraps (w : Nat) (b : Buffer) : Bool := decide (2 ^ w < b.addr + b.len)

/-- Whether two buffers share no byte; a buffer of length 0 overlaps nothing (R61). -/
def disjoint (b c : Buffer) : Bool :=
  decide (b.len = 0) || decide (c.len = 0) || decide (b.addr + b.len ≤ c.addr) || decide (c.addr + c.len ≤ b.addr)

/-- What the contract says of the four buffers of a validated command: no buffer wraps (R59), the output buffer is the input
buffer or disjoint from it, and is disjoint from the key and nonce buffers (R61). The answer is the refusal, if one is due. -/
def contractBreach (w : Nat) (g : HostRegs) : Option Refusal :=
  if wraps w (outBuffer g) || wraps w (inBuffer g) || wraps w (nonceBuffer g) || wraps w (keyBuffer g) then some .bufferWraps
  else if (decide (g.outAddr = g.inAddr) || disjoint (outBuffer g) (inBuffer g))
      && disjoint (outBuffer g) (keyBuffer g) && disjoint (outBuffer g) (nonceBuffer g) then none
  else some .bufferOverlap

/-- The legal round counts, `ROUND_SET` (R5). -/
def legalRounds (rounds : Nat) : Bool := rounds == 20 || rounds == 12 || rounds == 8

/-- VALIDATE (R127): the four checks in their order; the answer is the condition to raise, if any. It reads four registers and
nothing else. -/
def validate (rounds : Nat) (g : HostRegs) : Option Condition :=
  if g.outLen ≠ g.inLen then some .invalidLength
  else if g.nonceLen ≠ 8 then some .invalidLength
  else if g.keyLen ≠ 32 then some .invalidLength
  else if legalRounds rounds then none
  else some .invalidParameter

/-- Whether an access by another agent races with the running command (R66): a store into its key, nonce, input or output
buffer. -/
def storeRaces (g : HostRegs) (a : Nat) : Bool :=
  inside (keyBuffer g) a || inside (nonceBuffer g) a || inside (inBuffer g) a || inside (outBuffer g) a

/-- Whether a load by another agent races with the running command (R66): a load from its output buffer. -/
def loadRaces (g : HostRegs) (a : Nat) : Bool := inside (outBuffer g) a

end Sys2Proof.Machine
end

