-- ==== Sys2Proof/Machine/Sequencer.lean ====
section
/-! DEFINITION. The stream combiner's sequencer: ISSUE, LATCH, NEXT, FULLSTEP, PARTSTEP, FINISH, and a whole command
(spec/43_stream_combiner.md R125 to R133). -/

namespace Sys2Proof.Machine

/-- ISSUE up to LATCH, for a decoded command (R126): only while PHASE = IDLE (R180); VALIDATE first (R127), then the contract
on the buffers (R59, R61; DEDUCED that an error is reported first, safe, log 9). -/
def issueCommand (kind : CmdKind) (rounds : Nat) (s : State) : Host.Outcome State Fault Refusal :=
  if isIdle s then
    match validate rounds s.regs with
    | some e => .next (raiseFromValidate e s)
    | none =>
      match contractBreach s.addrBits s.regs with
      | some r => .refused r
      | none => .next { s with comb := { s.comb with opk := kind, phase := .issued rounds } }
  else .refused .commandWhileRunning

/-- LATCH (R128): key and nonce are read once per command, also when the message is empty. -/
def latch (rounds : Nat) (s : State) : Host.Outcome State Fault Refusal :=
  andThen (memRead s s.regs.keyAddr Config.keySize) fun kb =>
  andThen (memRead s s.regs.nonceAddr Config.nonceSize) fun nb =>
  .next { s with
    engine := { s.engine with
      k := wordsLE 8 kb
      n := wordsLE 2 nb
      t := counterWords s.regs.ctrIn
      rc := BitVec.ofNat 5 rounds }
    comb := { s.comb with
      phase := .run
      ia := s.regs.inAddr
      oa := s.regs.outAddr
      len := s.regs.inLen
      off := 0 } }

/-- FULLSTEP (R130): all reads of the chunk precede all writes (R55). -/
def fullStep (s : State) : Host.Outcome State Fault Refusal :=
  andThen (memRead s (s.comb.ia + s.comb.off) Config.blockSize) fun input =>
  let e := block s.engine
  let output := xor64 (padBlock input) e.ks
  andThen (memWrite { s with engine := e } (s.comb.oa + s.comb.off) output.toList) fun s' =>
  .next { s' with comb := { s'.comb with off := s'.comb.off + 64 } }

/-- PARTSTEP (R131): the partial chunk goes through SCRATCH, only its valid part is written back, and SCRATCH is zeroed. -/
def partStep (s : State) : Host.Outcome State Fault Refusal :=
  let r := s.comb.len - s.comb.off
  andThen (memRead s (s.comb.ia + s.comb.off) r) fun input =>
  let s := { s with comb := { s.comb with scratch := padBlock input } }
  let s := { s with engine := block s.engine }
  let s := { s with comb := { s.comb with scratch := xor64 s.comb.scratch s.engine.ks } }
  andThen (memWrite s (s.comb.oa + s.comb.off) (s.comb.scratch.toList.take r)) fun s' =>
  .next { s' with comb := { s'.comb with scratch := zeroBlock, off := s'.comb.len } }

/-- FINISH (R132): ENCRYPT returns the counter, DECRYPT does not; the command has ended. -/
def finish (s : State) : State :=
  endCommand { s with
    regs := { s.regs with
      status := .ok
      ctrOut := if s.comb.opk = .enc then counterOf s.engine.t else s.regs.ctrOut } }

/-- NEXT (R129). -/
def nextChunk (s : State) : Host.Outcome State Fault Refusal :=
  if fullChunkLeft s.comb.len s.comb.off then fullStep s
  else if bytesLeft s.comb.len s.comb.off then partStep s
  else .next (finish s)

/-- One transition of the sequencer; while PHASE = IDLE none is enabled and nothing changes (R125, R126). -/
def seqStep (s : State) : Host.Outcome State Fault Refusal :=
  match s.comb.phase with
  | .idle => .next s
  | .issued rounds => latch rounds s
  | .run => nextChunk s

/-- `repeat NEXT until PHASE = IDLE` (R126), LATCH before it; `fuel` bounds the number of transitions. -/
def runSequencer : Nat → State → Host.Outcome State Fault Refusal
  | 0, s => .next s
  | fuel + 1, s => if isIdle s then .next s else andThen (seqStep s) (runSequencer fuel)

/-- The transitions of a command on `IN_LEN` bytes: LATCH, one per full chunk, at most one for the partial chunk, FINISH
(R125, R129). -/
def commandSteps (g : HostRegs) : Nat := g.inLen / 64 + 3

/-- A whole command (R126): it ends in an error, or runs to FINISH, or is stuck, or is refused. -/
def runCommand (kind : CmdKind) (rounds : Nat) (s : State) : Host.Outcome State Fault Refusal :=
  andThen (issueCommand kind rounds s) (runSequencer (commandSteps s.regs))

end Sys2Proof.Machine
end

