-- ==== Sys2Proof/Machine/Commands.lean ====
section
/-! DEFINITION. The meanings of the two commands (spec/43_stream_combiner.md R134, R135). -/

namespace Sys2Proof.Machine

/-- ENCRYPT (R134): its immediate is the round count. -/
def execEncrypt (rounds : Nat) (s : State) : Host.Outcome State Fault Refusal := runCommand .enc rounds s

/-- DECRYPT (R135): the same steps with 20 rounds; CTR_OUT is not written. -/
def execDecrypt (s : State) : Host.Outcome State Fault Refusal := runCommand .dec 20 s

/-- The round count of a command: the immediate of ENCRYPT (R73), the constant 20 of DECRYPT (R135). -/
def commandRounds : Instr → Nat
  | .encrypt rounds => rounds
  | .decrypt => 20

/-- ISSUE alone for a decoded command, its other steps left to the sequencer (R126, R188). -/
def startCommand (i : Instr) (s : State) : Host.Outcome State Fault Refusal :=
  match i with
  | .encrypt rounds => issueCommand .enc rounds s
  | .decrypt => issueCommand .dec 20 s

end Sys2Proof.Machine
end

