-- ==== Sys2Proof/Machine/HostPort.lean ====
section
/-! DEFINITION. What the world outside does to the core: register accesses, commands, memory accesses of other agents, reset
(spec/10_state.md R37, R41, spec/43_stream_combiner.md R126, spec/70_reset_and_hazards.md R170, R180, R185). -/

namespace Sys2Proof.Machine

/-- The host's store of a word in CMD (R37). -/
def storeCmd (w : Word) (s : State) : State := { s with regs := { s.regs with cmd := w } }

/-- The host's write of CMD (R37, R41, R126): the word is stored and decoded; an illegal word raises IllegalCommand and changes
nothing else (R153); a command runs to its end before the write returns (R180). -/
def commandWrite (w : Word) (s : State) : Host.Outcome State Fault Refusal :=
  match decode w with
  | .instr i => exec i (storeCmd w s)
  | .illegal _ => .next (raiseCondition .illegalCommand (storeCmd w s))

/-- The host's write of CMD seen step by step: only ISSUE happens here (R126, R188). -/
def commandIssue (w : Word) (s : State) : Host.Outcome State Fault Refusal :=
  match decode w with
  | .instr i => startCommand i (storeCmd w s)
  | .illegal _ => .next (raiseCondition .illegalCommand (storeCmd w s))

/-- `WR reg, v` (R41, R82). -/
def hostWrite (r : HostReg) (v : Nat) (s : State) : Host.Outcome State Fault Refusal :=
  if r = .cmd then
    if v < 2 ^ regWidth s.addrBits .cmd then commandWrite (BitVec.ofNat 32 v) s else .refused (.valueTooWide .cmd)
  else writeReg r v s

/-- `RD reg` (R41): the value is returned to the host; the core does not change. -/
def hostReadReg (r : HostReg) (s : State) : State := { s with hostRead := readReg s.regs r }

/-- `MOV CTR_IN, CTR_OUT` (R79): a read of CTR_OUT and a write of CTR_IN. -/
def hostMov (s : State) : State :=
  let s := hostReadReg .ctrOut s
  { s with regs := storeReg s.regs .ctrIn s.hostRead }

/-- A register access of the host, which falls between commands (R41, R180): while a command runs the host has no such move. -/
def betweenCommands (s : State) (access : Host.Outcome State Fault Refusal) : Host.Outcome State Fault Refusal :=
  if isIdle s then access else .refused .hostAccessWhileRunning

/-- A command word of the host: while a command runs it is refused (R126, R180). -/
def whenIdle (s : State) (command : Host.Outcome State Fault Refusal) : Host.Outcome State Fault Refusal :=
  if isIdle s then command else .refused .commandWhileRunning

/-- An access of the host or another agent to the byte at `a` (R42, R66, R185): the address must exist, and while a command
runs the access must not race with it. -/
def agentAccess (a : Nat) (races : Bool) (s t : State) : Host.Outcome State Fault Refusal :=
  if 2 ^ s.addrBits ≤ a then .refused (.noSuchAddress a)
  else if !isIdle s && races then .refused (.race a)
  else .next t

/-- A byte stored by the host or another agent (R66, R185): while a command runs, not into its buffers. -/
def agentStore (a : Nat) (b : Byte) (s : State) : Host.Outcome State Fault Refusal :=
  agentAccess a (storeRaces s.regs a) s { s with mem := writeByte s.mem a b }

/-- A byte loaded by the host or another agent (R66, R185): while a command runs, not from its output buffer. -/
def agentLoad (a : Nat) (s : State) : Host.Outcome State Fault Refusal :=
  agentAccess a (loadRaces s.regs a) s { s with hostRead := (readByte s.mem a).toNat }

/-- One pending action takes place; it has already left the list. -/
def deliver (e : Event) (s : State) : Host.Outcome State Fault Refusal :=
  match e with
  | .wr .cmd v => whenIdle s (hostWrite .cmd v s)
  | .wr r v => betweenCommands s (hostWrite r v s)
  | .rd r => betweenCommands s (.next (hostReadReg r s))
  | .mov => betweenCommands s (.next (hostMov s))
  | .issue w => whenIdle s (commandIssue w s)
  | .tick => seqStep s
  | .store a b => agentStore a b s
  | .load a => agentLoad a s
  | .reset => .next (resetCore s)

/-- The outside world's turn taken with the oldest pending action, or, where none is pending, the sequencer's next step; an idle
core with nothing pending stays as it is (R12, R129; DESIGN CHOICE, safe, log 18). -/
def turn (s : State) : Host.Outcome State Fault Refusal :=
  match s.events with
  | [] => seqStep s
  | e :: es => deliver e { s with events := es }

/-- The host's write of a command word, placed so that it is the very next thing to happen: first in the list of pending
actions, and between commands (R126, R180). -/
def placeCommand (s : State) (w : Nat) : State :=
  { s with
    comb := { s.comb with phase := .idle }
    events := .wr .cmd w :: s.events }

end Sys2Proof.Machine
end

