-- ==== Sys2Proof/Machine/Step.lean ====
section
/-! DEFINITION. One step of the machine. Nothing is fetched (spec/10_state.md R27): commands arrive as host writes of CMD. -/

namespace Sys2Proof.Machine

/-- One step: the oldest pending action of the outside world takes place, or the sequencer advances (log 10, log 11). -/
def step (s : State) : Host.Outcome State Fault Refusal := turn s

/-- `s` with a host write of the `nbits`-bit command word `w` as the very next action. -/
def State.withFetchWord (s : State) (nbits w : Nat) : State := placeCommand s (w % 2 ^ nbits)

end Sys2Proof.Machine
end

