-- ==== Sys2Proof/Machine/Assembler.lean ====
section
/-! DEFINITION. The host program's statements and their expansion into host actions (spec/30_encoding.md R79 to R83). -/

namespace Sys2Proof.Machine

/-- The operand `ctr` of a statement (R79): a number, or the word CTR_OUT, the value last returned. -/
inductive CtrOperand where
  | number (c : Nat)
  | ctrOut
deriving DecidableEq, Repr

/-- A statement of a host program (R79) or a pseudo-command (R81). An operand in brackets there is an `Option` here. -/
inductive Stmt where
  | encrypt (out inp nonce key : Buffer) (ctr : Option CtrOperand) (rounds : Option Nat)
  | decrypt (out inp nonce key : Buffer) (ctr : Option CtrOperand)
  | encrypt12 (out inp nonce key : Buffer) (ctr : Option CtrOperand)
  | encrypt8 (out inp nonce key : Buffer) (ctr : Option CtrOperand)
  | encrypt20 (out inp nonce key : Buffer) (ctr : Option CtrOperand)
  | rd (reg : HostReg)
  | mov
deriving DecidableEq, Repr

/-- A counter operand is a 64-bit number or the word CTR_OUT (R79). -/
def CtrOperand.wf : CtrOperand → Bool
  | .number c => decide (c < 2 ^ 64)
  | .ctrOut => true

/-- The numbers of a statement lie in the ranges R79 gives them: `rounds` 0 to 255, `ctr` 64 bits. An omitted operand does. -/
def Stmt.wf : Stmt → Bool
  | .encrypt _ _ _ _ ctr rounds => ctr.all CtrOperand.wf && rounds.all fun r => decide (r < 256)
  | .decrypt _ _ _ _ ctr | .encrypt12 _ _ _ _ ctr | .encrypt8 _ _ _ _ ctr | .encrypt20 _ _ _ _ ctr => ctr.all CtrOperand.wf
  | .rd _ | .mov => true

/-- The write of CTR_IN of a statement (R80, R82): an omitted counter is 0, and the word CTR_OUT is the host's copy. -/
def ctrActions : Option CtrOperand → Event
  | none => .wr .ctrIn 0
  | some (.number c) => .wr .ctrIn c
  | some .ctrOut => .mov

/-- The nine operand writes of a command statement and then the write of CMD (R82). -/
def commandActions (out inp nonce key : Buffer) (ctr : Option CtrOperand) (word : Nat) : List Event :=
  [.wr .outAddr out.addr, .wr .outLen out.len,
   .wr .inAddr inp.addr, .wr .inLen inp.len,
   .wr .nonceAddr nonce.addr, .wr .nonceLen nonce.len,
   .wr .keyAddr key.addr, .wr .keyLen key.len,
   ctrActions ctr,
   .wr .cmd word]

/-- The command word of an ENCRYPT statement (R82); an omitted round count is 20 (R80). R79 limits `rounds` to 0 to 255 and says
nothing of a larger number (N21): for one the formula is kept, so the word has RSV1 bits set and is illegal, or does not fit CMD
and is refused. DESIGN CHOICE, unsafe for a statement outside `Stmt.wf`, log 30. -/
def encryptWord (rounds : Option Nat) : Nat := 0x00000001 + 256 * rounds.getD 20

/-- The host actions a statement stands for (R81, R82). -/
def expand : Stmt → List Event
  | .encrypt out inp nonce key ctr rounds => commandActions out inp nonce key ctr (encryptWord rounds)
  | .decrypt out inp nonce key ctr => commandActions out inp nonce key ctr 0x00000002
  | .encrypt12 out inp nonce key ctr => commandActions out inp nonce key ctr (encryptWord (some 12))
  | .encrypt8 out inp nonce key ctr => commandActions out inp nonce key ctr (encryptWord (some 8))
  | .encrypt20 out inp nonce key ctr => commandActions out inp nonce key ctr (encryptWord (some 20))
  | .rd reg => [.rd reg]
  | .mov => [.mov]

/-- The registers as the operand writes and the CMD write of a command statement leave them (R82). -/
def operandRegs (g : HostRegs) (out inp nonce key : Buffer) (c : Nat) (word : Nat) : HostRegs :=
  { g with
    outAddr := out.addr
    outLen := out.len
    inAddr := inp.addr
    inLen := inp.len
    nonceAddr := nonce.addr
    nonceLen := nonce.len
    keyAddr := key.addr
    keyLen := key.len
    ctrIn := BitVec.ofNat 64 c
    cmd := BitVec.ofNat 32 word }

/-- A host program's statements as pending actions, in order (R79). -/
def expandProgram (p : List Stmt) : List Event := p.flatMap expand

end Sys2Proof.Machine
end

