-- ==== Sys2Proof/Machine/ClosedForm.lean ====
section
/-! DEFINITION. What a block and a command compute, as pure functions (spec/42_keystream_engine.md R117, R118,
spec/43_stream_combiner.md R136). No step uses them; statements do. -/

namespace Sys2Proof.Machine

/-- `DR^n`, `n` double-rounds (R117). -/
def doubleRounds : Nat → Words 16 → Words 16
  | 0, x => x
  | n + 1, x => doubleRounds n (doubleRound x)

/-- `Core(J, r)` (R117). -/
def coreWords (j : Words 16) (r : Nat) : Words 16 := addWords (doubleRounds (r / 2) j) j

/-- `BlockFn(key, nonce, C, r)` (R117). -/
def blockFn (key nonce : List Byte) (c : Counter) (r : Nat) : Block :=
  serializeWords (coreWords (initialState (wordsLE 8 key) (wordsLE 2 nonce) (counterWords c)) r)

/-- Byte `m` of the keystream that starts at counter `c` (R118). -/
def streamByte (key nonce : List Byte) (c : Counter) (r m : Nat) : Byte :=
  (blockFn key nonce (c + BitVec.ofNat 64 (m / 64)) r)[m % 64]'(Nat.mod_lt m (by decide))

/-- `Combine(in, key, nonce, C, r)` (R136). -/
def combine (input key nonce : List Byte) (c : Counter) (r : Nat) : List Byte :=
  input.mapIdx fun m b => b ^^^ streamByte key nonce c r m

/-- The sixteen words as a 4 by 4 matrix, transposed: `x[4r + c]` and `x[4c + r]` change places (R101). -/
def transposeWords (x : Words 16) : Words 16 :=
  vecOf 16 fun i => x[4 * (i.val % 4) + i.val / 4]

/-- The blocks a message of `len` bytes needs, `ceil(L / 64)` (R137). -/
def blockCount (len : Nat) : Nat := (len + 63) / 64

end Sys2Proof.Machine
end

