-- ==== Sys2Proof/Safety.lean ====
section
/-! DEFINITION. The terms claims use: the launch premises of a command (spec/70_reset_and_hazards.md R187) and the invariant of
the machine (spec/10_state.md R26, R27, R29). -/

namespace Sys2Proof.Machine

/-- The three length checks of VALIDATE hold (R127). -/
abbrev ValidLengths (g : HostRegs) : Prop :=
  g.outLen = g.inLen ∧ g.nonceLen = 8 ∧ g.keyLen = 32

/-- A legal round count (R5 `ROUND_SET`). -/
abbrev LegalRounds (rounds : Nat) : Prop := rounds = 20 ∨ rounds = 12 ∨ rounds = 8

/-- Two buffers share an address. -/
def Overlap (b c : Buffer) : Prop := ∃ a, inside b a = true ∧ inside c a = true

/-- The memory contract of a validated command, premise (b) of R187 less admission: no buffer wraps (R59), and the output
buffer overlaps only as R61 allows. -/
abbrev BuffersInContract (w : Nat) (g : HostRegs) : Prop := contractBreach w g = none

/-- Every byte of a buffer lies in `MemAdmit` (R58). -/
abbrev BufferAdmitted (rs : List Region) (b : Buffer) : Prop := ∀ i < b.len, admits rs (b.addr + i) = true

/-- The four buffers lie in `MemAdmit` (R187). -/
abbrev BuffersAdmitted (s : State) : Prop :=
  BufferAdmitted s.regions (keyBuffer s.regs) ∧ BufferAdmitted s.regions (nonceBuffer s.regs) ∧
  BufferAdmitted s.regions (inBuffer s.regs) ∧ BufferAdmitted s.regions (outBuffer s.regs)

/-- Premise (a) of R187: PHASE = IDLE with SCRATCH = 0^64. -/
abbrev Ready (s : State) : Prop := isIdle s = true ∧ s.comb.scratch = zeroBlock

/-- The launch premises of a command with valid lengths (R187 (a), (b)); (c) and (d) hold of a command that runs in one step. -/
abbrev Launch (s : State) : Prop :=
  Ready s ∧ ValidLengths s.regs ∧ BuffersInContract s.addrBits s.regs ∧ BuffersAdmitted s

/-- The bytes of the input, key and nonce buffers (R134). -/
def inputBytes (s : State) : List Byte := readBytes s.mem s.regs.inAddr s.regs.inLen
def keyBytes (s : State) : List Byte := readBytes s.mem s.regs.keyAddr 32
def nonceBytes (s : State) : List Byte := readBytes s.mem s.regs.nonceAddr 8

/-- Memory after a successful command with `rounds` rounds (R134, R135). -/
def outputMemory (s : State) (rounds : Nat) : Memory :=
  writeBytes s.mem s.regs.outAddr
    (combine (inputBytes s) (keyBytes s) (nonceBytes s) s.regs.ctrIn rounds)

/-- What a running command has settled (R26, R27): validation and the contract hold; and in the chunk loop the latched
registers are the operand registers, `rc` is legal, and OFF is a chunk boundary not past LEN. -/
def sequencerOk (s : State) : Bool :=
  match s.comb.phase with
  | .idle => true
  | .issued rounds => decide (validate rounds s.regs = none) && decide (contractBreach s.addrBits s.regs = none)
  | .run =>
    decide (ValidLengths s.regs) && decide (contractBreach s.addrBits s.regs = none) &&
    legalRounds s.engine.rc.toNat &&
    decide (s.comb.len = s.regs.inLen) && decide (s.comb.ia = s.regs.inAddr) && decide (s.comb.oa = s.regs.outAddr) &&
    decide (s.comb.off ≤ s.comb.len) &&
    (decide (s.comb.off % 64 = 0) || decide (s.comb.off = s.comb.len))

/-- Every address and length register, host-visible or internal, fits in `w` bits (R27, R31). -/
def registersFit (w : Nat) (g : HostRegs) (c : Combiner) : Bool :=
  [g.outAddr, g.outLen, g.inAddr, g.inLen, g.nonceAddr, g.nonceLen, g.keyAddr, g.keyLen, c.off, c.len, c.oa, c.ia].all
    fun v => decide (v < 2 ^ w)

/-- The invariant of the machine between steps: memory is in canonical form and lies in the address space (R50), the address and
length registers have their width (R31), SCRATCH is 0^64 (R29, R141), and a running command is where the rules put it. -/
abbrev Inv (s : State) : Prop :=
  Memory.wf s.mem = true ∧ Memory.fits s.addrBits s.mem = true ∧ registersFit s.addrBits s.regs s.comb = true ∧
  s.comb.scratch = zeroBlock ∧ sequencerOk s = true

end Sys2Proof.Machine
end

