-- ==== Sys2Proof/Certificates/Slice0/Obligations.lean ====
section
/-! DEFINITION. The statements for the provers, from the numbered rules of spec/. -/

open Sys2Proof Sys2Proof.Machine

/-! ### Word operations (40_word_ops.md, 43_stream_combiner.md R133) -/

/-- R90: ADD32 is addition modulo 2^32. -/
def Obligations.Add32IsAdditionModuloTwoToThe32 : Prop :=
  ∀ a b : Word, (add32 a b).toNat = (a.toNat + b.toNat) % 2 ^ 32

/-- R91: bit `i` of XOR32 is 1 exactly when the operands' bits differ, and XOR32 is self-inverse. -/
def Obligations.Xor32ActsOnEachBit : Prop :=
  ∀ a b : Word,
    (∀ i < 32, ((xor32 a b).getLsbD i = true ↔ a.getLsbD i ≠ b.getLsbD i)) ∧
    xor32 (xor32 a b) b = a

/-- R92: ROTL32 by its formula, amount 0 the identity, and bit `(i + n) mod 32` of the result is bit `i` of `v`. -/
def Obligations.Rotl32IsCircularLeftRotation : Prop :=
  ∀ (v : Word) (n : Fin 32),
    (n.val = 0 → rotl32 v n = v) ∧
    (1 ≤ n.val → (rotl32 v n).toNat = v.toNat * 2 ^ n.val % 2 ^ 32 + v.toNat / 2 ^ (32 - n.val)) ∧
    ∀ i < 32, (rotl32 v n).getLsbD ((i + n.val) % 32) = v.getLsbD i

/-- R93, R94: LE32 by its formula, LE32at on a byte sequence, LE32INV by its bytes, and the two are inverse. -/
def Obligations.LittleEndianConversionsAreInverse : Prop :=
  (∀ b0 b1 b2 b3 : Byte,
    (le32 b0 b1 b2 b3).toNat = b0.toNat + 2 ^ 8 * b1.toNat + 2 ^ 16 * b2.toNat + 2 ^ 24 * b3.toNat) ∧
  (∀ (bs : List Byte) (i : Nat) (h : 4 * i + 3 < bs.length),
    le32At bs i = le32 bs[4 * i] bs[4 * i + 1] bs[4 * i + 2] bs[4 * i + 3]) ∧
  (∀ (w : Word) (i : Nat) (h : i < 4), (le32Inv w)[i].toNat = w.toNat / 2 ^ (8 * i) % 2 ^ 8) ∧
  (∀ w : Word, le32 (le32Inv w)[0] (le32Inv w)[1] (le32Inv w)[2] (le32Inv w)[3] = w) ∧
  (∀ b0 b1 b2 b3 : Byte, le32Inv (le32 b0 b1 b2 b3) = #v[b0, b1, b2, b3])

/-- R133: XOR64 acts on each of the 64 bytes, which is what XOR32 on sixteen little-endian lanes gives too; XOR with zeros is
the identity and XOR64 is self-inverse. -/
def Obligations.Xor64ActsOnEachByteAndEachLane : Prop :=
  ∀ a b : Block,
    (∀ (i : Nat) (h : i < 64), (xor64 a b)[i] = a[i] ^^^ b[i]) ∧
    (∀ (m c : Nat) (hm : m < 16) (hc : c < 4),
      (xor64 a b)[4 * m + c] = (le32Inv (xor32 (le32At a.toList m) (le32At b.toList m)))[c]) ∧
    xor64 a zeroBlock = a ∧ xor64 (xor64 a b) b = a

/-! ### The round-mixing network (41_round_network.md) -/

/-- R100: the four statements of QR, each reading the results of those before it; QR is a bijection on quadruples; and applied to
four different registers it writes its results to them and to no other. -/
def Obligations.QuarterRoundIsSequentialAndBijective : Prop :=
  (∀ a b c d : Word, ∃ a' b' c' d' : Word,
    quarterRound ⟨a, b, c, d⟩ = ⟨a', b', c', d'⟩ ∧
    b' = b ^^^ (a + d).rotateLeft 7 ∧ c' = c ^^^ (b' + a).rotateLeft 9 ∧
    d' = d ^^^ (c' + b').rotateLeft 13 ∧ a' = a ^^^ (d' + c').rotateLeft 18) ∧
  Function.Bijective quarterRound ∧
  ∀ (x : Words 16) (g : Group), g.p ≠ g.q → g.p ≠ g.r → g.p ≠ g.s → g.q ≠ g.r → g.q ≠ g.s → g.r ≠ g.s →
    (⟨(applyGroup x g)[g.p], (applyGroup x g)[g.q], (applyGroup x g)[g.r], (applyGroup x g)[g.s]⟩ : Quad) =
      quarterRound ⟨x[g.p], x[g.q], x[g.r], x[g.s]⟩ ∧
    ∀ i : Fin 16, i ≠ g.p → i ≠ g.q → i ≠ g.r → i ≠ g.s → (applyGroup x g)[i] = x[i]

/-- R101, R102, R103: each column group and each row group of the state after COLUMNROUND or ROWROUND is QR of the same group
before it, and the groups are those of the formula. The index groups rest on general knowledge (log 19). -/
def Obligations.RoundsApplyQuarterRoundsToTheirGroups : Prop :=
  (∀ (x : Words 16) (c : Fin 4),
    let p : Fin 16 := ⟨5 * c.val % 16, by omega⟩
    let q : Fin 16 := ⟨(5 * c.val + 4) % 16, by omega⟩
    let r : Fin 16 := ⟨(5 * c.val + 8) % 16, by omega⟩
    let s : Fin 16 := ⟨(5 * c.val + 12) % 16, by omega⟩
    (⟨(columnRound x)[p], (columnRound x)[q], (columnRound x)[r], (columnRound x)[s]⟩ : Quad) =
      quarterRound ⟨x[p], x[q], x[r], x[s]⟩) ∧
  (∀ (x : Words 16) (r : Fin 4),
    let p : Fin 16 := ⟨4 * r.val + r.val, by omega⟩
    let q : Fin 16 := ⟨4 * r.val + (r.val + 1) % 4, by omega⟩
    let u : Fin 16 := ⟨4 * r.val + (r.val + 2) % 4, by omega⟩
    let s : Fin 16 := ⟨4 * r.val + (r.val + 3) % 4, by omega⟩
    (⟨(rowRound x)[p], (rowRound x)[q], (rowRound x)[u], (rowRound x)[s]⟩ : Quad) =
      quarterRound ⟨x[p], x[q], x[u], x[s]⟩)

/-- R102, R103: the four quarter-rounds of a round may be performed in any order. The groups rest on general knowledge
(log 19). -/
def Obligations.QuarterRoundsOfARoundCommute : Prop :=
  ∀ x : Words 16,
    (∀ gs : List Group, gs.Perm columnGroups → gs.foldl applyGroup x = columnRound x) ∧
    (∀ gs : List Group, gs.Perm rowGroups → gs.foldl applyGroup x = rowRound x)

/-- R101: the row round is the column round of the transposed matrix. The groups rest on general knowledge (log 19). -/
def Obligations.RowRoundIsTransposedColumnRound : Prop :=
  ∀ x : Words 16, rowRound x = transposeWords (columnRound (transposeWords x))

/-- R104, R105: ROUNDS applies `rc / 2` double-rounds, each a column round and then a row round, ends with `dr = rc / 2`, and
changes nothing else. -/
def Obligations.RoundLoopAppliesHalfTheRounds : Prop :=
  ∀ e : Engine,
    rounds e = { e with
      x := Nat.iterate (fun x => rowRound (columnRound x)) (e.rc.toNat / 2) e.x
      dr := BitVec.ofNat 4 (e.rc.toNat / 2) }

/-! ### The keystream engine (42_keystream_engine.md) -/

/-- R110: the constants are the bytes of `expand 32-byte k` read as little-endian words. The numbers rest on general
knowledge (log 19). -/
def Obligations.ConstantsSpellExpand32ByteK : Prop :=
  constants = wordsLE 4
    [0x65, 0x78, 0x70, 0x61, 0x6E, 0x64, 0x20, 0x33, 0x32, 0x2D, 0x62, 0x79, 0x74, 0x65, 0x20, 0x6B]

/-- R111: INIT puts every word in its place and changes nothing but `x`. The positions rest on general knowledge (log 19). -/
def Obligations.InitPlacesEveryWord : Prop :=
  ∀ e : Engine, engineInit e = { e with
    x := #v[0x61707865, e.k[0], e.k[1], e.k[2], e.k[3], 0x3320646E, e.n[0], e.n[1],
            e.t[0], e.t[1], 0x79622D32, e.k[4], e.k[5], e.k[6], e.k[7], 0x6B206574] }

/-- R112, R113: SAVE copies `x` to `j`, FEEDFORWARD adds `j` to `x` word by word, and neither changes anything else. -/
def Obligations.SaveCopiesAndFeedforwardAdds : Prop :=
  ∀ e : Engine,
    engineSave e = { e with j := e.x } ∧
    feedforward e = { e with x := (feedforward e).x } ∧
    ∀ (i : Nat) (h : i < 16), (feedforward e).x[i].toNat = (e.x[i].toNat + e.j[i].toNat) % 2 ^ 32

/-- R114: SERIALIZE writes word 0 first and within each word the least significant byte first, and changes nothing but KS. -/
def Obligations.SerializeIsLittleEndian : Prop :=
  ∀ e : Engine,
    serialize e = { e with ks := (serialize e).ks } ∧
    ∀ (i c : Nat) (hi : i < 16) (hc : c < 4),
      (serialize e).ks[4 * i + c].toNat = e.x[i].toNat / 2 ^ (8 * c) % 2 ^ 8

/-- R115: CTRINC by its statements and as the increment of the 64-bit counter modulo 2^64; nothing but `t` changes. -/
def Obligations.CounterIncrementCarriesAndWraps : Prop :=
  ∀ e : Engine,
    ctrInc e = { e with t := (ctrInc e).t } ∧
    (ctrInc e).t[0] = e.t[0] + 1 ∧
    (ctrInc e).t[1] = (if e.t[0] + 1 = 0 then e.t[1] + 1 else e.t[1]) ∧
    (counterOf (ctrInc e).t).toNat = ((counterOf e.t).toNat + 1) % 2 ^ 64

/-- R116, R117: when the engine holds the words of a key and a nonce, BLOCK leaves the block of the counter it had in KS, the
counter plus one in `t`, and `k`, `n`, `rc` as they were. The block's bytes rest on the tables of log 19. -/
def Obligations.BlockIsBlockFnOfTheCounter : Prop :=
  ∀ (e : Engine) (key nonce : List Byte), e.k = wordsLE 8 key → e.n = wordsLE 2 nonce →
    (block e).ks = blockFn key nonce (counterOf e.t) e.rc.toNat ∧
    counterOf (block e).t = counterOf e.t + 1 ∧
    (block e).k = e.k ∧ (block e).n = e.n ∧ (block e).rc = e.rc

/-- R117: Core of sixteen zero words is sixteen zero words, for every round count. Core rests on the tables of log 19. -/
def Obligations.CoreOfZeroIsZero : Prop :=
  ∀ r : Nat, coreWords (Vector.replicate 16 0) r = Vector.replicate 16 0

/-! ### The command word (30_encoding.md) -/

/-- R71, R72, R82: decoding the word of a well-formed command gives it back, and a word that decodes to a command is that
command's word. -/
def Obligations.DecodeAndEncodeAgree : Prop :=
  (∀ i : Instr, i.wf = true → decode (encode i) = .instr i) ∧
  (∀ (w : Word) (i : Instr), decode w = .instr i → i.wf = true ∧ encode i = w)

/-- R75: what Decode answers, by the fields of the word as numbers. -/
def Obligations.DecodeFollowsTheFields : Prop :=
  ∀ w : Word,
    let rsv1 := w.toNat / 2 ^ 16
    let rsv0 := w.toNat / 2 ^ 4 % 2 ^ 4
    let rounds := w.toNat / 2 ^ 8 % 2 ^ 8
    let op := w.toNat % 2 ^ 4
    (rsv1 ≠ 0 ∨ rsv0 ≠ 0 → ∃ why, decode w = .illegal why) ∧
    (rsv1 = 0 → rsv0 = 0 → op = 1 → decode w = .instr (.encrypt rounds)) ∧
    (rsv1 = 0 → rsv0 = 0 → op = 2 → rounds = 0 → decode w = .instr .decrypt) ∧
    (rsv1 = 0 → rsv0 = 0 → op = 2 → rounds ≠ 0 → ∃ why, decode w = .illegal why) ∧
    (rsv1 = 0 → rsv0 = 0 → op ≠ 1 → op ≠ 2 → ∃ why, decode w = .illegal why)

/-- R72: a word selects a row of the table when its masked bits match. -/
def Obligations.DecodeSelectsTheMatchingRow : Prop :=
  ∀ w : Word,
    ((∃ r, decode w = .instr (.encrypt r)) ↔ w &&& 0xFFFF00FF = 0x00000001) ∧
    (decode w = .instr .decrypt ↔ w &&& 0xFFFFFFFF = 0x00000002)

/-- R72 and 95_test_vectors.md section 3.4: the frequent words and some illegal ones. -/
def Obligations.SampleWordsDecodeAsListed : Prop :=
  decode 0x00001401 = .instr (.encrypt 20) ∧ decode 0x00000C01 = .instr (.encrypt 12) ∧
  decode 0x00000801 = .instr (.encrypt 8) ∧ decode 0x00000A01 = .instr (.encrypt 10) ∧
  decode 0x00000002 = .instr .decrypt ∧ decode 0x00001402 = .illegal (.decryptRounds 20) ∧
  decode 0x00011401 = .illegal .reservedBits ∧ decode 0x00001411 = .illegal .reservedBits ∧
  decode 0x0000000F = .illegal (.undefinedOp 15)

/-- R37, R41, R126: between commands, a host write of a word that decodes to a command stores the word in CMD and runs that
command to its end, in one step. That a step is the host's next action is the model's form (log 10, log 11). -/
def Obligations.StepRunsTheDecodedCommand : Prop :=
  ∀ (s : State) (w : Word) (es : List Event) (i : Instr),
    isIdle s = true → s.events = .wr .cmd w.toNat :: es → decode w = .instr i →
    step s = exec i { s with events := es, regs := { s.regs with cmd := w } }

/-! ### ENCRYPT and DECRYPT (43_stream_combiner.md, 60_exceptions.md) -/

/-- R134: ENCRYPT, from an idle core with a clean scratch buffer. Wrong lengths or a wrong round count write STATUS and nothing
else; otherwise, on buffers in contract and admitted, the output buffer receives Combine of the input, CTR_OUT the counter plus
the number of blocks, STATUS is OK, and no other host-visible register changes. Combine rests on the tables of log 19. That a
command with a wrong length or round count reports it also where a buffer wraps or overlaps is log 9, and that a round count of
256 or more counts as a wrong one is log 24. -/
def Obligations.EncryptWritesCombineAndNextCounter : Prop :=
  ∀ (rounds : Nat) (s : State), Ready s →
    (¬ ValidLengths s.regs → ∃ t, exec (.encrypt rounds) s = .next t ∧
      t.mem = s.mem ∧ t.regs = { s.regs with status := .invalidLength } ∧ Ready t) ∧
    (ValidLengths s.regs → ¬ LegalRounds rounds → ∃ t, exec (.encrypt rounds) s = .next t ∧
      t.mem = s.mem ∧ t.regs = { s.regs with status := .invalidParameter } ∧ Ready t) ∧
    (ValidLengths s.regs → LegalRounds rounds → BuffersInContract s.addrBits s.regs → BuffersAdmitted s →
      ∃ t, exec (.encrypt rounds) s = .next t ∧
        t.mem = outputMemory s rounds ∧
        t.regs = { s.regs with
          status := .ok
          ctrOut := s.regs.ctrIn + BitVec.ofNat 64 ((s.regs.inLen + 63) / 64) } ∧
        Ready t)

/-- R135: DECRYPT, the same with 20 rounds: it never reports a wrong round count and leaves CTR_OUT as it was. Combine rests on
the tables of log 19, and the error on a buffer that wraps or overlaps on log 9. -/
def Obligations.DecryptWritesCombineAndKeepsCounter : Prop :=
  ∀ s : State, Ready s →
    (¬ ValidLengths s.regs → ∃ t, exec .decrypt s = .next t ∧
      t.mem = s.mem ∧ t.regs = { s.regs with status := .invalidLength } ∧ Ready t) ∧
    (ValidLengths s.regs → BuffersInContract s.addrBits s.regs → BuffersAdmitted s →
      ∃ t, exec .decrypt s = .next t ∧
        t.mem = outputMemory s 20 ∧ t.regs = { s.regs with status := .ok } ∧ Ready t)

/-- R152: of the commands that go on to a next state, ENCRYPT ends with InvalidParameter exactly when all lengths are right and
its round count is not 20, 12 or 8, and then records nothing but the code; DECRYPT cannot raise it. That a round count of 256 or
more, which no ROUNDS field holds, counts as a wrong one is the model's choice (log 24). That ENCRYPT does go on to the next
state on such operands is said in EncryptWritesCombineAndNextCounter. -/
def Obligations.InvalidParameterIsForEncryptOnly : Prop :=
  (∀ (rounds : Nat) (s t : State), exec (.encrypt rounds) s = .next t →
    (t.regs.status = .invalidParameter ↔ ValidLengths s.regs ∧ ¬ LegalRounds rounds) ∧
    (t.regs.status = .invalidParameter → t.regs = { s.regs with status := .invalidParameter } ∧ t.mem = s.mem)) ∧
  (∀ s t : State, exec .decrypt s = .next t → t.regs.status ≠ .invalidParameter)

/-- R76, R153: an illegal command word stores itself in CMD, sets STATUS to ILLEGAL_COMMAND, and changes nothing else. -/
def Obligations.IllegalWordOnlySetsStatus : Prop :=
  ∀ (s : State) (w : Word) (es : List Event) (why : IllegalWord),
    isIdle s = true → s.events = .wr .cmd w.toNat :: es → decode w = .illegal why →
    step s = .next { s with events := es, regs := { s.regs with cmd := w, status := .illegalCommand } }

/-- R156: IllegalCommand comes before InvalidLength, and InvalidLength before InvalidParameter. That the last two also come
before a breach of the buffer contract is the model's reading (log 9). -/
def Obligations.ErrorsAreReportedInPriorityOrder : Prop :=
  ∀ (s : State) (w : Word) (es : List Event), isIdle s = true → s.events = .wr .cmd w.toNat :: es →
    ((∃ why, decode w = .illegal why) → ∃ t, step s = .next t ∧ t.regs.status = .illegalCommand) ∧
    (∀ i, decode w = .instr i → ¬ ValidLengths s.regs → ∃ t, step s = .next t ∧ t.regs.status = .invalidLength) ∧
    (∀ i, decode w = .instr i → ValidLengths s.regs → ¬ LegalRounds (commandRounds i) →
      ∃ t, step s = .next t ∧ t.regs.status = .invalidParameter)

/-- R154, R158: a command that ends in an error changes STATUS and nothing else but OPK, which is unspecified; in particular it
writes no memory, no CTR_OUT and no other internal register. -/
def Obligations.FailedCommandHasNoEffectButStatus : Prop :=
  ∀ (i : Instr) (s t : State), exec i s = .next t → t.regs.status ≠ .ok →
    t.mem = s.mem ∧ t.engine = s.engine ∧ t.regs = { s.regs with status := t.regs.status } ∧
    t.comb = { s.comb with opk := t.comb.opk } ∧
    t.addrBits = s.addrBits ∧ t.regions = s.regions ∧ t.events = s.events ∧ t.hostRead = s.hostRead

/-- R60, R134, R135, R140, memory frame of ENCRYPT and DECRYPT: every byte outside the output buffer is unchanged. -/
def Obligations.CommandsWriteOnlyTheOutputBuffer : Prop :=
  ∀ (i : Instr) (s t : State), exec i s = .next t →
    ∀ a, ¬ (s.regs.outAddr ≤ a ∧ a < s.regs.outAddr + s.regs.outLen) →
      readByte t.mem a = readByte s.mem a

/-- R39, R41, register frame of ENCRYPT and DECRYPT: CMD and the operand registers are unchanged; CTR_OUT changes only in a
successful ENCRYPT; the parameters, the pending actions and what the host has read are unchanged. -/
def Obligations.CommandsKeepOperandRegisters : Prop :=
  ∀ (i : Instr) (s t : State), exec i s = .next t →
    t.regs = { s.regs with status := t.regs.status, ctrOut := t.regs.ctrOut } ∧
    (i = .decrypt ∨ t.regs.status ≠ .ok → t.regs.ctrOut = s.regs.ctrOut) ∧
    t.addrBits = s.addrBits ∧ t.regions = s.regions ∧ t.events = s.events ∧ t.hostRead = s.hostRead

/-- R29, R125, R141, R183: a command that ends leaves PHASE = IDLE and SCRATCH = 0^64. -/
def Obligations.CommandsEndIdleWithCleanScratch : Prop :=
  ∀ (i : Instr) (s t : State), s.comb.scratch = zeroBlock → exec i s = .next t → Ready t

/-- R138: a zero-length ENCRYPT or DECRYPT with valid lengths and rounds writes no byte and ends OK, and ENCRYPT returns CTR_IN;
it still reads key and nonce, so one of them that is not admitted stops it (log 8); and a wrong key length is still reported,
also where a buffer wraps (log 9). -/
def Obligations.ZeroLengthCommandWritesNothing : Prop :=
  ∀ (i : Instr) (s : State), Ready s → s.regs.inLen = 0 → s.regs.outLen = 0 → s.regs.nonceLen = 8 →
    LegalRounds (commandRounds i) →
    (s.regs.keyLen = 32 → BuffersInContract s.addrBits s.regs → BuffersAdmitted s →
      ∃ t, exec i s = .next t ∧ t.mem = s.mem ∧ Ready t ∧
        t.regs = { s.regs with
          status := .ok
          ctrOut := if i = .decrypt then s.regs.ctrOut else s.regs.ctrIn }) ∧
    (s.regs.keyLen = 32 → BuffersInContract s.addrBits s.regs →
      ¬ BufferAdmitted s.regions (keyBuffer s.regs) ∨ ¬ BufferAdmitted s.regions (nonceBuffer s.regs) →
      ∃ a, exec i s = .fault (.notAdmitted a)) ∧
    (s.regs.keyLen = 16 → ∃ t, exec i s = .next t ∧ t.mem = s.mem ∧ t.regs = { s.regs with status := .invalidLength })

/-- R136: byte `m` of Combine is byte `m` of the input with byte `m mod 64` of the block of counter `C + floor(m / 64)`. The
block's bytes rest on the tables of log 19. -/
def Obligations.CombineUsesSuccessiveBlocks : Prop :=
  ∀ (input key nonce : List Byte) (c : Counter) (r q m : Nat) (hm : m < 64) (h : 64 * q + m < input.length),
    (combine input key nonce c r).length = input.length ∧
    (combine input key nonce c r)[64 * q + m]? =
      some (input[64 * q + m] ^^^ (blockFn key nonce (c + BitVec.ofNat 64 q) r)[m])

/-- R139: Combine is its own inverse. -/
def Obligations.CombineIsAnInvolution : Prop :=
  ∀ (input key nonce : List Byte) (c : Counter) (r : Nat),
    combine (combine input key nonce c r) key nonce c r = input

/-- R143: a stream may be cut at a multiple of 64 bytes. -/
def Obligations.CombineContinuesAtBlockBoundaries : Prop :=
  ∀ (a b key nonce : List Byte) (c : Counter) (r : Nat), a.length % 64 = 0 →
    combine (a ++ b) key nonce c r =
      combine a key nonce c r ++ combine b key nonce (c + BitVec.ofNat 64 (a.length / 64)) r

/-- R61 (a), R139: in place, the same ENCRYPT twice restores memory. -/
def Obligations.EncryptTwiceInPlaceRestoresMemory : Prop :=
  ∀ (rounds : Nat) (s : State), Launch s → LegalRounds rounds → s.regs.outAddr = s.regs.inAddr →
    Memory.wf s.mem = true →
    ∃ t u, exec (.encrypt rounds) s = .next t ∧ exec (.encrypt rounds) t = .next u ∧ u.mem = s.mem ∧
      u.regs = t.regs

/-- R182 turned round, R139: DECRYPT after a 20-round ENCRYPT in place, with the same operands, restores memory. -/
def Obligations.DecryptUndoesTwentyRoundEncrypt : Prop :=
  ∀ s : State, Launch s → s.regs.outAddr = s.regs.inAddr → Memory.wf s.mem = true →
    ∃ t u, exec (.encrypt 20) s = .next t ∧ exec .decrypt t = .next u ∧ u.mem = s.mem

/-! ### Where a command stops (20_memory.md R58 to R61, 60_exceptions.md R168, 70_reset_and_hazards.md R180) -/

/-- R58, R60, R168: a command is stuck exactly when it passes validation and contract and a byte of its four buffers is not
admitted; the address lies in one of them. That errors and contract come first is log 9, and the address is the model's
(log 8). -/
def Obligations.CommandIsStuckExactlyOnUnadmittedBuffers : Prop :=
  ∀ (i : Instr) (s : State),
    ((∃ a, exec i s = .fault (.notAdmitted a)) ↔
      isIdle s = true ∧ ValidLengths s.regs ∧ LegalRounds (commandRounds i) ∧ BuffersInContract s.addrBits s.regs ∧
        ¬ BuffersAdmitted s) ∧
    (∀ a, exec i s = .fault (.notAdmitted a) → admits s.regions a = false ∧
      (inside (keyBuffer s.regs) a = true ∨ inside (nonceBuffer s.regs) a = true ∨
       inside (inBuffer s.regs) a = true ∨ inside (outBuffer s.regs) a = true))

/-- R59, R61, R178: a validated command whose buffer wraps, or whose output buffer overlaps another buffer other than exactly in
place, is refused; any other is not, for every ADDR_BITS. The wrap is named first (log 28). -/
def Obligations.BufferContractIsRefusedAsStated : Prop :=
  ∀ (i : Instr) (s : State), isIdle s = true → ValidLengths s.regs → LegalRounds (commandRounds i) →
    let top := 2 ^ s.addrBits
    let wrapping := top < s.regs.outAddr + s.regs.outLen ∨ top < s.regs.inAddr + s.regs.inLen ∨
      top < s.regs.nonceAddr + s.regs.nonceLen ∨ top < s.regs.keyAddr + s.regs.keyLen
    let overlapping := s.regs.outAddr ≠ s.regs.inAddr ∧ Overlap (outBuffer s.regs) (inBuffer s.regs) ∨
      Overlap (outBuffer s.regs) (keyBuffer s.regs) ∨ Overlap (outBuffer s.regs) (nonceBuffer s.regs)
    (wrapping → exec i s = .refused .bufferWraps) ∧
    (¬ wrapping → overlapping → exec i s = .refused .bufferOverlap) ∧
    (¬ wrapping → ¬ overlapping → ∀ r, exec i s ≠ .refused r)

/-- R126, R180: while a command runs, another command and every other host access are refused (log 14). -/
def Obligations.NothingIsIssuedWhileACommandRuns : Prop :=
  ∀ s : State, s.comb.phase ≠ .idle →
    (∀ i, exec i s = .refused .commandWhileRunning) ∧
    (∀ v es, s.events = .wr .cmd v :: es → step s = .refused .commandWhileRunning) ∧
    (∀ r v es, r ≠ .cmd → s.events = .wr r v :: es → step s = .refused .hostAccessWhileRunning) ∧
    (∀ w es, s.events = .issue w :: es → step s = .refused .commandWhileRunning) ∧
    (∀ r es, s.events = .rd r :: es → step s = .refused .hostAccessWhileRunning) ∧
    (∀ es, s.events = .mov :: es → step s = .refused .hostAccessWhileRunning)

/-! ### The steps of the sequencer (43_stream_combiner.md R126 to R132) -/

/-- R126, R188: the command run step by step (ISSUE, LATCH, one chunk a step, FINISH) ends as the command run in one step:
the same next state, the same fault or the same refusal. The two forms are the model's (log 10). -/
def Obligations.StepByStepRunEqualsOneStepRun : Prop :=
  ∀ (s : State) (w : Word), isIdle s = true →
    Host.Core.run Sys2Proof.core (s.regs.inLen / 64 + 4) { s with events := [.issue w] } =
      step { s with events := [.wr .cmd w.toNat] }

/-- R128: LATCH reads the key and the nonce as little-endian words, takes the counter, the round count and the message's place
from the operand registers, and changes nothing else. That LATCH is a step of its own is log 10 and log 13. -/
def Obligations.LatchLoadsTheCommand : Prop :=
  ∀ (s : State) (rounds : Nat), s.events = [] → s.comb.phase = .issued rounds → ValidLengths s.regs →
    wraps s.addrBits (keyBuffer s.regs) = false → wraps s.addrBits (nonceBuffer s.regs) = false →
    BufferAdmitted s.regions (keyBuffer s.regs) → BufferAdmitted s.regions (nonceBuffer s.regs) →
    ∃ t, step s = .next t ∧
      (∀ (m : Nat) (h : m < 8), t.engine.k[m] = le32
        (readByte s.mem (s.regs.keyAddr + 4 * m)) (readByte s.mem (s.regs.keyAddr + (4 * m + 1)))
        (readByte s.mem (s.regs.keyAddr + (4 * m + 2))) (readByte s.mem (s.regs.keyAddr + (4 * m + 3)))) ∧
      (∀ (m : Nat) (h : m < 2), t.engine.n[m] = le32
        (readByte s.mem (s.regs.nonceAddr + 4 * m)) (readByte s.mem (s.regs.nonceAddr + (4 * m + 1)))
        (readByte s.mem (s.regs.nonceAddr + (4 * m + 2))) (readByte s.mem (s.regs.nonceAddr + (4 * m + 3)))) ∧
      counterOf t.engine.t = s.regs.ctrIn ∧ t.engine.rc = BitVec.ofNat 5 rounds ∧
      t = { s with
        engine := { s.engine with k := t.engine.k, n := t.engine.n, t := t.engine.t, rc := t.engine.rc }
        comb := { s.comb with
          phase := .run, ia := s.regs.inAddr, oa := s.regs.outAddr, len := s.regs.inLen, off := 0 } }

/-- R129, R130: with 64 or more bytes left, the next step is FULLSTEP: BLOCK, 64 input bytes combined with KS and written to the
output at the same offset, OFF advanced by 64, and nothing else. -/
def Obligations.FullStepCombinesOneChunk : Prop :=
  ∀ s : State, s.events = [] → s.comb.phase = .run → 64 ≤ s.comb.len - s.comb.off →
    let src := s.comb.ia + s.comb.off
    let dst := s.comb.oa + s.comb.off
    src + 64 ≤ 2 ^ s.addrBits → dst + 64 ≤ 2 ^ s.addrBits →
    (∀ m < 64, admits s.regions (src + m) = true) → (∀ m < 64, admits s.regions (dst + m) = true) →
    step s = .next { s with
      engine := block s.engine
      mem := writeBytes s.mem dst (List.ofFn fun m : Fin 64 => readByte s.mem (src + m.val) ^^^ (block s.engine).ks[m])
      comb := { s.comb with off := s.comb.off + 64 } }

/-- R129, R131: with 1 to 63 bytes left, the next step is PARTSTEP: BLOCK, only the remaining bytes read, combined and written,
SCRATCH zero at the end, OFF set to LEN, and nothing else. -/
def Obligations.PartStepCombinesTheRemainingBytes : Prop :=
  ∀ s : State, s.events = [] → s.comb.phase = .run →
    let r := s.comb.len - s.comb.off
    let src := s.comb.ia + s.comb.off
    let dst := s.comb.oa + s.comb.off
    0 < r → ∀ hr : r < 64, src + r ≤ 2 ^ s.addrBits → dst + r ≤ 2 ^ s.addrBits →
    (∀ m < r, admits s.regions (src + m) = true) → (∀ m < r, admits s.regions (dst + m) = true) →
    step s = .next { s with
      engine := block s.engine
      mem := writeBytes s.mem dst
        (List.ofFn fun m : Fin r => readByte s.mem (src + m.val) ^^^ (block s.engine).ks[m.val]'(Nat.lt_trans m.isLt hr))
      comb := { s.comb with scratch := zeroBlock, off := s.comb.len } }

/-- R129, R132: with no byte left, the next step is FINISH: CTR_OUT takes the counter if the command is ENCRYPT, STATUS is OK,
PHASE is IDLE, and SCRATCH, memory and the other registers are unchanged. -/
def Obligations.FinishReturnsCounterAndStatus : Prop :=
  ∀ s : State, s.events = [] → s.comb.phase = .run → s.comb.len = s.comb.off →
    ∃ t, step s = .next t ∧ t.comb.phase = .idle ∧ t.comb.scratch = s.comb.scratch ∧ t.mem = s.mem ∧
      t.regs = { s.regs with
        status := .ok
        ctrOut := if s.comb.opk = .enc then s.engine.t[1] ++ s.engine.t[0] else s.regs.ctrOut } ∧
      t.addrBits = s.addrBits ∧ t.regions = s.regions ∧ t.events = [] ∧ t.hostRead = s.hostRead

/-! ### Invariants, reset (10_state.md R26 to R29, R45, 70_reset_and_hazards.md R170 to R173) -/

/-- R26, R27, R29, R31, R50, R141: every step keeps the invariant, for every ADDR_BITS: memory canonical and inside the address
space, every address and length register within its width, SCRATCH zero between steps, and a running command
with validated operands, a legal round count, latched registers equal to the operand registers, and OFF at a chunk boundary not
past LEN. The memory form and the split of PHASE are the model's (log 5, log 13). -/
def Obligations.StepKeepsTheInvariant : Prop :=
  ∀ s t : State, Inv s → step s = .next t → Inv t

/-- R29, R45, R171: the invariant holds at reset. -/
def Obligations.ResetEstablishesTheInvariant : Prop :=
  Inv State.reset

/-- R45, R170: what a reset event leaves, from any state and also during a command: PHASE = IDLE, SCRATCH = 0^64, the writable and
result registers 0, the constants 32, 8, 64, memory not touched; and State.reset agrees. The unspecified registers are left
out. -/
def Obligations.ResetLeavesTheStatedValues : Prop :=
  (∀ (s : State) (es : List Event), s.events = .reset :: es →
    ∃ t, step s = .next t ∧ Ready t ∧ t.mem = s.mem ∧ t.addrBits = s.addrBits ∧ t.regions = s.regions ∧ t.events = es ∧
      ∀ r, readReg t.regs r =
        (if r = .keySize then 32 else if r = .nonceSize then 8 else if r = .blockSize then 64 else 0)) ∧
  Ready State.reset ∧
  ∀ r, readReg State.reset.regs r =
    (if r = .keySize then 32 else if r = .nonceSize then 8 else if r = .blockSize then 64 else 0)

/-- R173: a command issued right after reset, State.reset or a reset event, without any operand write ends with INVALID_LENGTH
and touches no memory. -/
def Obligations.CommandRightAfterResetIsRejected : Prop :=
  ∀ (i : Instr) (s : State), s = State.reset ∨ (∃ u, s = resetCore u) →
    ∃ t, exec i s = .next t ∧ t.mem = s.mem ∧ t.regs = { s.regs with status := .invalidLength }

/-- R170, U9: a reset that strikes a running ENCRYPT or DECRYPT after `q` of its chunks leaves exactly those chunks of the output
written, the core idle with a clean scratch buffer, and the host-visible registers reset. That the reset falls between two
steps is log 12; Combine rests on the tables of log 19. -/
def Obligations.ResetDuringCommandLeavesWholeChunks : Prop :=
  ∀ (s : State) (w : Word) (i : Instr) (q : Nat), Launch s → decode w = .instr i → LegalRounds (commandRounds i) →
    q ≤ (s.regs.inLen + 63) / 64 →
    s.events = .issue w :: (List.replicate (q + 1) .tick ++ [.reset]) →
    ∃ t, Host.Core.run Sys2Proof.core (q + 3) s = .next t ∧ Ready t ∧ t.regs = HostRegs.reset ∧
      t.mem = writeBytes s.mem s.regs.outAddr
        ((combine (inputBytes s) (keyBytes s) (nonceBytes s) s.regs.ctrIn (commandRounds i)).take (64 * q))

/-! ### Determinism and locality (00_scope.md R11, 10_state.md R44, 20_memory.md R60) -/

/-- R11, R43, R44: what a command does to memory and the host-visible registers does not depend on any internal register: two
idle cores with the same registers, memory and admitted addresses end alike. -/
def Obligations.CommandsIgnoreInternalRegisters : Prop :=
  ∀ (i : Instr) (s u : State), isIdle s = true → isIdle u = true →
    s.regs = u.regs → s.mem = u.mem → s.addrBits = u.addrBits → s.regions = u.regions →
    (∀ t, exec i s = .next t → ∃ v, exec i u = .next v ∧ v.regs = t.regs ∧ v.mem = t.mem) ∧
    (∀ f, exec i s = .fault f → exec i u = .fault f) ∧
    (∀ r, exec i s = .refused r → exec i u = .refused r)

/-- R11, R60: a successful command's output bytes, status and counter depend on no memory byte outside its key, nonce and input
buffers. -/
def Obligations.OutputDependsOnlyOnTheReadBuffers : Prop :=
  ∀ (i : Instr) (s u : State), isIdle u = true → s.regs = u.regs → s.addrBits = u.addrBits → s.regions = u.regions →
    Memory.wf s.mem = true → Memory.wf u.mem = true →
    (∀ a, inside (keyBuffer s.regs) a = true ∨ inside (nonceBuffer s.regs) a = true ∨ inside (inBuffer s.regs) a = true →
      readByte s.mem a = readByte u.mem a) →
    ∀ t, exec i s = .next t → ∃ v, exec i u = .next v ∧ v.regs = t.regs ∧
      (t.regs.status = .ok → ∀ a, inside (outBuffer s.regs) a = true → readByte v.mem a = readByte t.mem a)

/-! ### Memory (20_memory.md) -/

/-- R56, R57, R58: MemWrite of an admitted run below the top goes on, MemRead then reads the same bytes back, and no other byte
and nothing else changes; a run that is not admitted stops the machine (log 8). Any ADDR_BITS. -/
def Obligations.BytesWrittenAreReadBack : Prop :=
  ∀ (s : State) (addr : Nat) (bs : List Byte), Memory.wf s.mem = true → addr + bs.length ≤ 2 ^ s.addrBits →
    ((∀ m < bs.length, admits s.regions (addr + m) = true) →
      ∃ t, memWrite s addr bs = .next t ∧ memRead t addr bs.length = .next bs ∧ Memory.wf t.mem = true ∧
        (∀ a, a < addr ∨ addr + bs.length ≤ a → readByte t.mem a = readByte s.mem a) ∧
        t = { s with mem := t.mem }) ∧
    (∀ m < bs.length, admits s.regions (addr + m) = false →
      ∃ a, memWrite s addr bs = .fault (.notAdmitted a) ∧ memRead s addr bs.length = .fault (.notAdmitted a))

/-- R66, R176: while a command runs, another agent's store into its key, nonce, input or output buffer is refused, and so is a
load from its output buffer (log 15). -/
def Obligations.RacesWithARunningCommandAreRefused : Prop :=
  ∀ (s : State) (a : Nat) (es : List Event), s.comb.phase ≠ .idle → a < 2 ^ s.addrBits →
    (inside (keyBuffer s.regs) a = true ∨ inside (nonceBuffer s.regs) a = true ∨ inside (inBuffer s.regs) a = true ∨
        inside (outBuffer s.regs) a = true →
      ∀ b, s.events = .store a b :: es → step s = .refused (.race a)) ∧
    (inside (outBuffer s.regs) a = true → s.events = .load a :: es → step s = .refused (.race a))

/-- R42, R50, R66, R185: between commands, and while a command runs where it does not race, another agent's store changes the one
byte it names and nothing else, and a load returns the byte and changes nothing else of the core; at an address that does not
exist both are refused (log 31). -/
def Obligations.AccessesOfOtherAgentsActOnOneByte : Prop :=
  ∀ (s : State) (a : Nat) (b : Byte) (es : List Event), Memory.wf s.mem = true →
    let inRead := inside (keyBuffer s.regs) a = true ∨ inside (nonceBuffer s.regs) a = true ∨ inside (inBuffer s.regs) a = true
    let inOut := inside (outBuffer s.regs) a = true
    (a < 2 ^ s.addrBits → isIdle s = true ∨ ¬ inRead ∧ ¬ inOut → s.events = .store a b :: es →
      ∃ t, step s = .next t ∧ readByte t.mem a = b ∧ (∀ c, c ≠ a → readByte t.mem c = readByte s.mem c) ∧
        t = { s with events := es, mem := t.mem }) ∧
    (a < 2 ^ s.addrBits → isIdle s = true ∨ ¬ inOut → s.events = .load a :: es →
      step s = .next { s with events := es, hostRead := (readByte s.mem a).toNat }) ∧
    (2 ^ s.addrBits ≤ a → s.events = .store a b :: es ∨ s.events = .load a :: es →
      step s = .refused (.noSuchAddress a))

/-! ### The host's registers and statements (10_state.md R38 to R41, 30_encoding.md R79 to R82) -/

/-- R41: between commands, a host write of an operand register stores the value and has no other effect, a host write of a
read-only register (numbers 1 and 11 to 14) is ignored, and a host read has no side effect. -/
def Obligations.HostAccessesActOnOneRegister : Prop :=
  ∀ (s : State) (r : HostReg) (v : Nat) (es : List Event), isIdle s = true →
    (s.events = .wr r v :: es → regNumber r = 1 ∨ 11 ≤ regNumber r → step s = .next { s with events := es }) ∧
    (s.events = .wr r v :: es → 2 ≤ regNumber r → regNumber r ≤ 10 → v < 2 ^ regWidth s.addrBits r →
      ∃ t, step s = .next t ∧ readReg t.regs r = v ∧ (∀ q, q ≠ r → readReg t.regs q = readReg s.regs q) ∧
        t = { s with events := es, regs := t.regs }) ∧
    (s.events = .rd r :: es → step s = .next { s with events := es, hostRead := readReg s.regs r })

/-- R38, R40: the constant registers read as 32, 8 and 64 whatever the other registers hold, and STATUS reads as its code with
bits 31:2 zero. -/
def Obligations.ConstantsAndStatusReadAsStated : Prop :=
  ∀ g : HostRegs,
    readReg g .keySize = 32 ∧ readReg g .nonceSize = 8 ∧ readReg g .blockSize = 64 ∧
    readReg g .status = (match g.status with
      | .ok => 0 | .invalidLength => 1 | .invalidParameter => 2 | .illegalCommand => 3)

/-- R79, R82: the ten host actions of an ENCRYPT or DECRYPT statement, taken one a step from an idle core, load the nine operand
registers and CMD and run the command; and with the counter operand CTR_OUT, CTR_IN takes the counter last returned, which the
host has read (log 26). That a step is one host action is the model's form (log 11). -/
def Obligations.StatementsExpandToTheirCommand : Prop :=
  ∀ (s : State) (out inp nonce key : Buffer) (c rounds : Nat), isIdle s = true →
    out.addr < 2 ^ s.addrBits → out.len < 2 ^ s.addrBits → inp.addr < 2 ^ s.addrBits → inp.len < 2 ^ s.addrBits →
    nonce.addr < 2 ^ s.addrBits → nonce.len < 2 ^ s.addrBits → key.addr < 2 ^ s.addrBits → key.len < 2 ^ s.addrBits →
    c < 2 ^ 64 → rounds < 256 →
    let last := s.regs.ctrOut.toNat
    (s.events = expand (.encrypt out inp nonce key (some (.number c)) (some rounds)) →
      Host.Core.run Sys2Proof.core 10 s =
        exec (.encrypt rounds)
          { s with events := [], regs := operandRegs s.regs out inp nonce key c (1 + 256 * rounds) }) ∧
    (s.events = expand (.encrypt out inp nonce key (some .ctrOut) (some rounds)) →
      Host.Core.run Sys2Proof.core 10 s =
        exec (.encrypt rounds)
          { s with
            events := []
            hostRead := last
            regs := operandRegs s.regs out inp nonce key last (1 + 256 * rounds) }) ∧
    (s.events = expand (.decrypt out inp nonce key (some (.number c))) →
      Host.Core.run Sys2Proof.core 10 s =
        exec .decrypt { s with events := [], regs := operandRegs s.regs out inp nonce key c 2 }) ∧
    (s.events = expand (.decrypt out inp nonce key (some .ctrOut)) →
      Host.Core.run Sys2Proof.core 10 s =
        exec .decrypt
          { s with events := [], hostRead := last, regs := operandRegs s.regs out inp nonce key last 2 })

/-- R80, R81: the pseudo-commands and the defaults stand for ENCRYPT statements, with the listed command words. -/
def Obligations.PseudoCommandsAndDefaultsExpand : Prop :=
  (∀ (out inp nonce key : Buffer) (ctr : Option CtrOperand),
    expand (.encrypt12 out inp nonce key ctr) = expand (.encrypt out inp nonce key ctr (some 12)) ∧
    expand (.encrypt8 out inp nonce key ctr) = expand (.encrypt out inp nonce key ctr (some 8)) ∧
    expand (.encrypt20 out inp nonce key ctr) = expand (.encrypt out inp nonce key ctr (some 20)) ∧
    expand (.encrypt out inp nonce key ctr none) = expand (.encrypt out inp nonce key ctr (some 20)) ∧
    (∀ rounds, expand (.encrypt out inp nonce key none rounds) =
      expand (.encrypt out inp nonce key (some (.number 0)) rounds)) ∧
    expand (.decrypt out inp nonce key none) = expand (.decrypt out inp nonce key (some (.number 0)))) ∧
  encryptWord (some 12) = 0x00000C01 ∧ encryptWord (some 8) = 0x00000801 ∧ encryptWord (some 20) = 0x00001401

/-- R79: MOV CTR_IN, CTR_OUT copies the returned counter into the operand register and changes nothing else of the core. -/
def Obligations.MovCopiesTheReturnedCounter : Prop :=
  ∀ (s : State) (es : List Event), isIdle s = true → s.events = .mov :: es →
    step s = .next { s with
      events := es
      hostRead := s.regs.ctrOut.toNat
      regs := { s.regs with ctrIn := s.regs.ctrOut } }
end

