-- ==== Sys2Proof/Laws/Engine.lean ====
section
/-! SUPPORT. The word operations and the keystream engine: what each operation leaves alone, and element lemmas. -/

namespace Sys2Proof.Machine

@[simp] theorem getElem_vecOf {α : Type} (n : Nat) (f : Fin n → α) (i : Nat) (h : i < n) :
    (vecOf n f)[i] = f ⟨i, h⟩ := by
  simp [vecOf]

@[simp] theorem getElem_xor64 (a b : Block) (i : Nat) (h : i < 64) : (xor64 a b)[i] = a[i] ^^^ b[i] := by
  simp [xor64]

@[simp] theorem getElem_padBlock (bs : List Byte) (i : Nat) (h : i < 64) : (padBlock bs)[i] = bs.getD i 0 := by
  simp [padBlock]

@[simp] theorem getElem_addWords (x j : Words 16) (i : Nat) (h : i < 16) :
    (addWords x j)[i] = add32 x[i] j[i] := by
  simp [addWords]

@[simp] theorem getElem_serializeWords (x : Words 16) (i : Nat) (h : i < 64) :
    (serializeWords x)[i] = (le32Inv x[i / 4])[i % 4] := by
  simp [serializeWords]

@[simp] theorem getElem_wordsLE (n : Nat) (bs : List Byte) (i : Nat) (h : i < n) : (wordsLE n bs)[i] = le32At bs i := by
  simp [wordsLE]

@[simp] theorem getElem_transposeWords (x : Words 16) (i : Nat) (h : i < 16) :
    (transposeWords x)[i] = x[4 * (i % 4) + i / 4] := by
  simp [transposeWords]

@[simp] theorem zeroBlock_getElem (i : Nat) (h : i < 64) : zeroBlock[i] = 0 := by simp [zeroBlock]

/-- The round loop touches `x` and `dr` alone (R106). -/
theorem roundLoop_frame (fuel : Nat) (e : Engine) :
    (roundLoop fuel e).j = e.j ∧ (roundLoop fuel e).k = e.k ∧ (roundLoop fuel e).n = e.n ∧
    (roundLoop fuel e).t = e.t ∧ (roundLoop fuel e).rc = e.rc ∧ (roundLoop fuel e).ks = e.ks := by
  induction fuel generalizing e with
  | zero => simp [roundLoop]
  | succ fuel ih =>
    rw [roundLoop]
    split
    · exact ih { e with x := doubleRound e.x, dr := e.dr + 1 }
    · simp

@[simp] theorem rounds_j (e : Engine) : (rounds e).j = e.j := (roundLoop_frame 16 _).1
@[simp] theorem rounds_k (e : Engine) : (rounds e).k = e.k := (roundLoop_frame 16 _).2.1
@[simp] theorem rounds_n (e : Engine) : (rounds e).n = e.n := (roundLoop_frame 16 _).2.2.1
@[simp] theorem rounds_t (e : Engine) : (rounds e).t = e.t := (roundLoop_frame 16 _).2.2.2.1
@[simp] theorem rounds_rc (e : Engine) : (rounds e).rc = e.rc := (roundLoop_frame 16 _).2.2.2.2.1
@[simp] theorem rounds_ks (e : Engine) : (rounds e).ks = e.ks := (roundLoop_frame 16 _).2.2.2.2.2

@[simp] theorem engineInit_x (e : Engine) : (engineInit e).x = initialState e.k e.n e.t := rfl
@[simp] theorem engineInit_j (e : Engine) : (engineInit e).j = e.j := rfl
@[simp] theorem engineInit_k (e : Engine) : (engineInit e).k = e.k := rfl
@[simp] theorem engineInit_n (e : Engine) : (engineInit e).n = e.n := rfl
@[simp] theorem engineInit_t (e : Engine) : (engineInit e).t = e.t := rfl
@[simp] theorem engineInit_rc (e : Engine) : (engineInit e).rc = e.rc := rfl
@[simp] theorem engineInit_dr (e : Engine) : (engineInit e).dr = e.dr := rfl
@[simp] theorem engineInit_ks (e : Engine) : (engineInit e).ks = e.ks := rfl
@[simp] theorem engineSave_x (e : Engine) : (engineSave e).x = e.x := rfl
@[simp] theorem engineSave_j (e : Engine) : (engineSave e).j = e.x := rfl
@[simp] theorem engineSave_k (e : Engine) : (engineSave e).k = e.k := rfl
@[simp] theorem engineSave_n (e : Engine) : (engineSave e).n = e.n := rfl
@[simp] theorem engineSave_t (e : Engine) : (engineSave e).t = e.t := rfl
@[simp] theorem engineSave_rc (e : Engine) : (engineSave e).rc = e.rc := rfl
@[simp] theorem engineSave_dr (e : Engine) : (engineSave e).dr = e.dr := rfl
@[simp] theorem engineSave_ks (e : Engine) : (engineSave e).ks = e.ks := rfl
@[simp] theorem feedforward_x (e : Engine) : (feedforward e).x = addWords e.x e.j := rfl
@[simp] theorem feedforward_j (e : Engine) : (feedforward e).j = e.j := rfl
@[simp] theorem feedforward_k (e : Engine) : (feedforward e).k = e.k := rfl
@[simp] theorem feedforward_n (e : Engine) : (feedforward e).n = e.n := rfl
@[simp] theorem feedforward_t (e : Engine) : (feedforward e).t = e.t := rfl
@[simp] theorem feedforward_rc (e : Engine) : (feedforward e).rc = e.rc := rfl
@[simp] theorem feedforward_dr (e : Engine) : (feedforward e).dr = e.dr := rfl
@[simp] theorem feedforward_ks (e : Engine) : (feedforward e).ks = e.ks := rfl
@[simp] theorem serialize_x (e : Engine) : (serialize e).x = e.x := rfl
@[simp] theorem serialize_j (e : Engine) : (serialize e).j = e.j := rfl
@[simp] theorem serialize_k (e : Engine) : (serialize e).k = e.k := rfl
@[simp] theorem serialize_n (e : Engine) : (serialize e).n = e.n := rfl
@[simp] theorem serialize_t (e : Engine) : (serialize e).t = e.t := rfl
@[simp] theorem serialize_rc (e : Engine) : (serialize e).rc = e.rc := rfl
@[simp] theorem serialize_dr (e : Engine) : (serialize e).dr = e.dr := rfl
@[simp] theorem serialize_ks (e : Engine) : (serialize e).ks = serializeWords e.x := rfl
@[simp] theorem ctrInc_x (e : Engine) : (ctrInc e).x = e.x := rfl
@[simp] theorem ctrInc_j (e : Engine) : (ctrInc e).j = e.j := rfl
@[simp] theorem ctrInc_k (e : Engine) : (ctrInc e).k = e.k := rfl
@[simp] theorem ctrInc_n (e : Engine) : (ctrInc e).n = e.n := rfl
@[simp] theorem ctrInc_t (e : Engine) : (ctrInc e).t = nextCounter e.t := rfl
@[simp] theorem ctrInc_rc (e : Engine) : (ctrInc e).rc = e.rc := rfl
@[simp] theorem ctrInc_dr (e : Engine) : (ctrInc e).dr = e.dr := rfl
@[simp] theorem ctrInc_ks (e : Engine) : (ctrInc e).ks = e.ks := rfl

@[simp] theorem block_k (e : Engine) : (block e).k = e.k := by simp [block]
@[simp] theorem block_n (e : Engine) : (block e).n = e.n := by simp [block]
@[simp] theorem block_rc (e : Engine) : (block e).rc = e.rc := by simp [block]
@[simp] theorem block_t (e : Engine) : (block e).t = nextCounter e.t := by simp [block]

@[simp] theorem length_combine (input key nonce : List Byte) (c : Counter) (r : Nat) :
    (combine input key nonce c r).length = input.length := by
  simp [combine]

/-- Byte `m` of the output is byte `m` of the input with byte `m` of the stream (R136). -/
theorem getElem_combine (input key nonce : List Byte) (c : Counter) (r m : Nat) (h : m < (combine input key nonce c r).length) :
    (combine input key nonce c r)[m] = input[m]'(by simpa using h) ^^^ streamByte key nonce c r m := by
  simp [combine]

end Sys2Proof.Machine
end

