-- ==== Sys2Proof/Laws/Memory.lean ====
section
/-! SUPPORT. Memory: a write changes one byte, sequences of bytes, and the canonical form. -/

namespace Sys2Proof.Machine

/-- A write leaves every other byte alone, in any memory. -/
theorem readByte_writeByte_of_ne (m : Memory) {a c : Nat} (b : Byte) (h : c ≠ a) :
    readByte (writeByte m a b) c = readByte m c := by
  induction m with
  | nil => by_cases hb : b = Config.unlistedByte <;> simp [writeByte, readByte, hb, h]
  | cons cell rest ih =>
    obtain ⟨k, v⟩ := cell
    by_cases hlt : a < k
    · by_cases hb : b = Config.unlistedByte <;> simp [writeByte, readByte, hlt, hb, h]
    · by_cases hk : a = k
      · subst hk
        by_cases hb : b = Config.unlistedByte <;> simp [writeByte, readByte, hb, h]
      · simp [writeByte, readByte, hlt, hk, ih]

/-- Below its lowest key a canonical memory lists nothing. -/
theorem readByte_below {m : Memory} {low a : Nat} (hw : wfAbove low m = true) (ha : a < low) :
    readByte m a = Config.unlistedByte := by
  induction m generalizing low with
  | nil => rfl
  | cons cell rest ih =>
    obtain ⟨k, v⟩ := cell
    simp only [wfAbove, Bool.and_eq_true, decide_eq_true_eq] at hw
    obtain ⟨⟨hk, -⟩, hrest⟩ := hw
    rw [readByte, if_neg (by omega)]
    exact ih hrest (by omega)

/-- A canonical memory stays so under a lower bound. -/
theorem wfAbove_mono {m : Memory} {low low' : Nat} (hw : wfAbove low m = true) (h : low' ≤ low) :
    wfAbove low' m = true := by
  cases m with
  | nil => rfl
  | cons cell rest =>
    obtain ⟨k, v⟩ := cell
    simp only [wfAbove, Bool.and_eq_true, decide_eq_true_eq] at hw ⊢
    exact ⟨⟨by omega, hw.1.2⟩, hw.2⟩

/-- The byte written is the byte read, in a canonical memory. -/
theorem readByte_writeByte_same_above {m : Memory} {low : Nat} (hw : wfAbove low m = true) (a : Nat) (b : Byte) :
    readByte (writeByte m a b) a = b := by
  induction m generalizing low with
  | nil => by_cases hb : b = Config.unlistedByte <;> simp [writeByte, readByte, hb]
  | cons cell rest ih =>
    obtain ⟨k, v⟩ := cell
    simp only [wfAbove, Bool.and_eq_true, decide_eq_true_eq] at hw
    have hrest := hw.2
    by_cases hlt : a < k
    · by_cases hb : b = Config.unlistedByte
      · simp only [writeByte, hlt, if_true, hb, readByte, if_neg (show a ≠ k by omega)]
        exact readByte_below hrest (by omega)
      · simp [writeByte, readByte, hlt, hb]
    · by_cases hk : a = k
      · subst hk
        by_cases hb : b = Config.unlistedByte
        · simp only [writeByte, hlt, if_false, hb, if_true]
          exact readByte_below hrest (by omega)
        · simp [writeByte, readByte, hb]
      · simp only [writeByte, hlt, hk, if_false, readByte]
        exact ih hrest

theorem readByte_writeByte_same {m : Memory} (hw : Memory.wf m = true) (a : Nat) (b : Byte) :
    readByte (writeByte m a b) a = b :=
  readByte_writeByte_same_above hw a b

/-- A write keeps the canonical form. -/
theorem wfAbove_writeByte {m : Memory} {low a : Nat} (hw : wfAbove low m = true) (hl : low ≤ a) (b : Byte) :
    wfAbove low (writeByte m a b) = true := by
  induction m generalizing low with
  | nil => by_cases hb : b = Config.unlistedByte <;> simp [writeByte, hb, wfAbove, hl]
  | cons cell rest ih =>
    obtain ⟨k, v⟩ := cell
    have hfull := hw
    simp only [wfAbove, Bool.and_eq_true, decide_eq_true_eq] at hw
    obtain ⟨⟨hk, hv⟩, hrest⟩ := hw
    by_cases hlt : a < k
    · by_cases hb : b = Config.unlistedByte
      · simpa only [writeByte, hlt, hb, if_true] using hfull
      · simp only [writeByte, hlt, hb, if_true, if_false, wfAbove, Bool.and_eq_true, decide_eq_true_eq]
        exact ⟨⟨hl, hb⟩, ⟨by omega, hv⟩, hrest⟩
    · by_cases hak : a = k
      · subst hak
        by_cases hb : b = Config.unlistedByte
        · simp only [writeByte, hlt, hb, if_true, if_false]
          exact wfAbove_mono hrest (by omega)
        · simp only [writeByte, hlt, hb, if_true, if_false, wfAbove, Bool.and_eq_true, decide_eq_true_eq]
          exact ⟨⟨hk, hb⟩, hrest⟩
      · simp only [writeByte, hlt, hak, if_false, wfAbove, Bool.and_eq_true, decide_eq_true_eq]
        exact ⟨⟨hk, hv⟩, ih hrest (by omega)⟩

/-- `writeByte` keeps the canonical form. -/
theorem writeByte_wf {m : Memory} (hw : Memory.wf m = true) (a : Nat) (b : Byte) : Memory.wf (writeByte m a b) = true :=
  wfAbove_writeByte hw (Nat.zero_le a) b

/-- `writeBytes` keeps the canonical form. -/
theorem writeBytes_wf {m : Memory} (hw : Memory.wf m = true) (a : Nat) (bs : List Byte) :
    Memory.wf (writeBytes m a bs) = true := by
  induction bs generalizing m a with
  | nil => exact hw
  | cons b bs ih => exact ih (writeByte_wf hw a b) (a + 1)

/-- A write at an address that exists keeps memory inside the address space (R50). -/
theorem writeByte_fits {w : Nat} {m : Memory} {a : Nat} (hm : Memory.fits w m = true) (ha : a < 2 ^ w) (b : Byte) :
    Memory.fits w (writeByte m a b) = true := by
  unfold Memory.fits at *
  induction m with
  | nil => by_cases hb : b = Config.unlistedByte <;> simp [writeByte, hb, ha]
  | cons cell rest ih =>
    obtain ⟨k, v⟩ := cell
    rw [List.all_cons, Bool.and_eq_true, decide_eq_true_eq] at hm
    unfold writeByte
    split_ifs <;> simp [hm, ha, ih]

/-- `writeBytes` below the top keeps memory inside the address space. -/
theorem writeBytes_fits {w : Nat} {m : Memory} {a : Nat} {bs : List Byte} (hm : Memory.fits w m = true)
    (ha : a + bs.length ≤ 2 ^ w) : Memory.fits w (writeBytes m a bs) = true := by
  induction bs generalizing m a with
  | nil => exact hm
  | cons b bs ih =>
    simp only [List.length_cons] at ha
    exact ih (writeByte_fits hm (by omega) b) (by omega)

/-- The memory at reset is in canonical form, in any address space. -/
theorem reset_mem_wf : Memory.wf State.reset.mem = true := rfl
theorem reset_mem_fits (w : Nat) : Memory.fits w State.reset.mem = true := rfl

/-- A write of a sequence leaves every byte outside it alone, in any memory. -/
theorem readByte_writeBytes_of_outside (m : Memory) {a c : Nat} (bs : List Byte)
    (h : c < a ∨ a + bs.length ≤ c) : readByte (writeBytes m a bs) c = readByte m c := by
  induction bs generalizing m a with
  | nil => rfl
  | cons b bs ih =>
    simp only [List.length_cons] at h
    rw [writeBytes, ih (writeByte m a b) (by omega), readByte_writeByte_of_ne m b (by omega)]

@[simp] theorem length_readBytes (m : Memory) (a n : Nat) : (readBytes m a n).length = n := by
  induction n generalizing a with
  | zero => rfl
  | succ n ih => simp [readBytes, ih]

/-- Byte `i` of a sequence read from memory. -/
theorem getElem_readBytes (m : Memory) (a n i : Nat) (h : i < (readBytes m a n).length) :
    (readBytes m a n)[i] = readByte m (a + i) := by
  induction n generalizing a i with
  | zero => simp [readBytes] at h
  | succ n ih =>
    cases i with
    | zero => rfl
    | succ i =>
      simp only [readBytes, List.getElem_cons_succ, ih]
      congr 1
      omega

/-- Two sequences read alike when their bytes do. -/
theorem readBytes_congr {m m' : Memory} {a n : Nat}
    (h : ∀ i < n, readByte m (a + i) = readByte m' (a + i)) : readBytes m a n = readBytes m' a n := by
  apply List.ext_getElem (by simp)
  intro i h₁ h₂
  rw [getElem_readBytes, getElem_readBytes]
  exact h i (by simpa using h₁)

/-- Reading a run of bytes is reading its two parts. -/
theorem readBytes_add (m : Memory) (a n k : Nat) :
    readBytes m a (n + k) = readBytes m a n ++ readBytes m (a + n) k := by
  induction n generalizing a with
  | zero => simp [readBytes]
  | succ n ih =>
    rw [show n + 1 + k = (n + k) + 1 by omega]
    simp only [readBytes, ih, List.cons_append]
    rw [show a + 1 + n = a + (n + 1) by omega]

/-- Writing two sequences one after the other is writing them joined. -/
theorem writeBytes_append (m : Memory) (a : Nat) (xs ys : List Byte) :
    writeBytes m a (xs ++ ys) = writeBytes (writeBytes m a xs) (a + xs.length) ys := by
  induction xs generalizing m a with
  | nil => simp [writeBytes]
  | cons x xs ih =>
    simp only [List.cons_append, writeBytes, ih, List.length_cons]
    rw [show a + 1 + xs.length = a + (xs.length + 1) by omega]

end Sys2Proof.Machine
end

