-- ==== Sys2Proof/Laws/Operands.lean ====
section
/-! SUPPORT. What VALIDATE, the buffer contract and the sequencer's comparisons answer, said once. -/

namespace Sys2Proof.Machine

theorem fullChunkLeft_iff {len off : Nat} : fullChunkLeft len off = true ↔ 64 ≤ len - off := by
  unfold fullChunkLeft
  exact decide_eq_true_iff

theorem bytesLeft_iff {len off : Nat} : bytesLeft len off = true ↔ 0 < len - off := by
  unfold bytesLeft
  exact decide_eq_true_iff

theorem legalRounds_iff {rounds : Nat} : legalRounds rounds = true ↔ LegalRounds rounds := by
  simp [legalRounds, or_assoc]

/-- VALIDATE passes exactly on right lengths and a legal round count (R127). -/
theorem validate_eq_none {rounds : Nat} {g : HostRegs} :
    validate rounds g = none ↔ ValidLengths g ∧ LegalRounds rounds := by
  unfold validate
  by_cases h1 : g.outLen = g.inLen
  · by_cases h2 : g.nonceLen = 8
    · by_cases h3 : g.keyLen = 32
      · rw [if_neg (not_not.2 h1), if_neg (not_not.2 h2), if_neg (not_not.2 h3)]
        by_cases h4 : legalRounds rounds = true
        · rw [if_pos h4]
          exact ⟨fun _ => ⟨⟨h1, h2, h3⟩, legalRounds_iff.1 h4⟩, fun _ => rfl⟩
        · rw [if_neg h4]
          exact ⟨nofun, fun h => absurd (legalRounds_iff.2 h.2) h4⟩
      · rw [if_neg (not_not.2 h1), if_neg (not_not.2 h2), if_pos h3]
        exact ⟨nofun, fun h => absurd h.1.2.2 h3⟩
    · rw [if_neg (not_not.2 h1), if_pos h2]
      exact ⟨nofun, fun h => absurd h.1.2.1 h2⟩
  · rw [if_pos h1]
    exact ⟨nofun, fun h => absurd h.1.1 h1⟩

/-- Wrong lengths are reported first, whatever the round count (R127, R156). -/
theorem validate_of_wrong_lengths {rounds : Nat} {g : HostRegs} (h : ¬ ValidLengths g) :
    validate rounds g = some .invalidLength := by
  unfold validate
  by_cases h1 : g.outLen = g.inLen
  · by_cases h2 : g.nonceLen = 8
    · rw [if_neg (not_not.2 h1), if_neg (not_not.2 h2), if_pos (show g.keyLen ≠ 32 from fun h3 => h ⟨h1, h2, h3⟩)]
    · rw [if_neg (not_not.2 h1), if_pos h2]
  · rw [if_pos h1]

/-- With right lengths, an illegal round count is reported (R127). -/
theorem validate_of_illegal_rounds {rounds : Nat} {g : HostRegs} (h : ValidLengths g) (hr : ¬ LegalRounds rounds) :
    validate rounds g = some .invalidParameter := by
  unfold validate
  rw [if_neg (not_not.2 h.1), if_neg (not_not.2 h.2.1), if_neg (not_not.2 h.2.2),
    if_neg (mt legalRounds_iff.1 hr)]

theorem wraps_iff {w : Nat} {b : Buffer} : wraps w b = true ↔ 2 ^ w < b.addr + b.len := by
  unfold wraps
  exact decide_eq_true_iff

theorem inside_iff {b : Buffer} {a : Nat} : inside b a = true ↔ b.addr ≤ a ∧ a < b.addr + b.len := by
  simp [inside]

/-- Two buffers are disjoint exactly when they share no address (R61). -/
theorem disjoint_iff {b c : Buffer} : disjoint b c = true ↔ ¬ Overlap b c := by
  unfold disjoint Overlap
  simp only [Bool.or_eq_true, decide_eq_true_eq, inside_iff, not_exists]
  constructor
  · intro h a
    omega
  · intro h
    have h1 := h b.addr
    have h2 := h c.addr
    omega

/-- The contract holds exactly when no buffer wraps and the output buffer overlaps only as R61 allows. -/
theorem contractBreach_eq_none {w : Nat} {g : HostRegs} :
    contractBreach w g = none ↔
      (wraps w (outBuffer g) = false ∧ wraps w (inBuffer g) = false ∧ wraps w (nonceBuffer g) = false ∧
        wraps w (keyBuffer g) = false) ∧
      (g.outAddr = g.inAddr ∨ disjoint (outBuffer g) (inBuffer g) = true) ∧
      disjoint (outBuffer g) (keyBuffer g) = true ∧ disjoint (outBuffer g) (nonceBuffer g) = true := by
  unfold contractBreach
  cases wraps w (outBuffer g) <;> cases wraps w (inBuffer g) <;> cases wraps w (nonceBuffer g) <;>
    cases wraps w (keyBuffer g) <;> simp [and_assoc]

end Sys2Proof.Machine
end

