-- ==== Sys2Proof/Laws/State.lean ====
section
/-! SUPPORT. What each named update of the state leaves in each field. -/

namespace Sys2Proof.Machine

variable (s : State)

@[simp] theorem storeCmd_engine (w : Word) : (storeCmd w s).engine = s.engine := rfl
@[simp] theorem storeCmd_comb (w : Word) : (storeCmd w s).comb = s.comb := rfl
@[simp] theorem storeCmd_regs (w : Word) : (storeCmd w s).regs = { s.regs with cmd := w } := rfl
@[simp] theorem storeCmd_mem (w : Word) : (storeCmd w s).mem = s.mem := rfl
@[simp] theorem storeCmd_addrBits (w : Word) : (storeCmd w s).addrBits = s.addrBits := rfl
@[simp] theorem storeCmd_regions (w : Word) : (storeCmd w s).regions = s.regions := rfl
@[simp] theorem storeCmd_events (w : Word) : (storeCmd w s).events = s.events := rfl
@[simp] theorem storeCmd_hostRead (w : Word) : (storeCmd w s).hostRead = s.hostRead := rfl
@[simp] theorem storeCmd_fresh (w : Word) : (storeCmd w s).fresh = s.fresh := rfl

variable (e : Condition)

@[simp] theorem raiseCondition_engine : (raiseCondition e s).engine = s.engine := rfl
@[simp] theorem raiseCondition_comb : (raiseCondition e s).comb = s.comb := rfl
@[simp] theorem raiseCondition_regs :
    (raiseCondition e s).regs = { s.regs with status := conditionCode e } := rfl
@[simp] theorem raiseCondition_mem : (raiseCondition e s).mem = s.mem := rfl
@[simp] theorem raiseCondition_addrBits : (raiseCondition e s).addrBits = s.addrBits := rfl
@[simp] theorem raiseCondition_regions : (raiseCondition e s).regions = s.regions := rfl
@[simp] theorem raiseCondition_events : (raiseCondition e s).events = s.events := rfl
@[simp] theorem raiseCondition_hostRead : (raiseCondition e s).hostRead = s.hostRead := rfl
@[simp] theorem raiseCondition_fresh : (raiseCondition e s).fresh = s.fresh := rfl

@[simp] theorem raiseFromValidate_engine : (raiseFromValidate e s).engine = s.engine := rfl
@[simp] theorem raiseFromValidate_comb :
    (raiseFromValidate e s).comb = { s.comb with opk := freeKind s.fresh 0 } := rfl
@[simp] theorem raiseFromValidate_regs :
    (raiseFromValidate e s).regs = { s.regs with status := conditionCode e } := rfl
@[simp] theorem raiseFromValidate_mem : (raiseFromValidate e s).mem = s.mem := rfl
@[simp] theorem raiseFromValidate_addrBits : (raiseFromValidate e s).addrBits = s.addrBits := rfl
@[simp] theorem raiseFromValidate_regions : (raiseFromValidate e s).regions = s.regions := rfl
@[simp] theorem raiseFromValidate_events : (raiseFromValidate e s).events = s.events := rfl
@[simp] theorem raiseFromValidate_hostRead : (raiseFromValidate e s).hostRead = s.hostRead := rfl
@[simp] theorem raiseFromValidate_fresh : (raiseFromValidate e s).fresh = s.fresh + 1 := rfl

@[simp] theorem freeCombiner_phase (w d : Nat) (b : Block) : (freeCombiner w d b).phase = .idle := rfl
@[simp] theorem freeCombiner_scratch (w d : Nat) (b : Block) : (freeCombiner w d b).scratch = b := rfl

@[simp] theorem endCommand_comb : (endCommand s).comb = freeCombiner s.addrBits s.fresh s.comb.scratch := rfl
@[simp] theorem endCommand_engine : (endCommand s).engine = freeEngine s.fresh := rfl
@[simp] theorem endCommand_regs : (endCommand s).regs = s.regs := rfl
@[simp] theorem endCommand_mem : (endCommand s).mem = s.mem := rfl
@[simp] theorem endCommand_addrBits : (endCommand s).addrBits = s.addrBits := rfl
@[simp] theorem endCommand_regions : (endCommand s).regions = s.regions := rfl
@[simp] theorem endCommand_events : (endCommand s).events = s.events := rfl
@[simp] theorem endCommand_hostRead : (endCommand s).hostRead = s.hostRead := rfl
@[simp] theorem endCommand_fresh : (endCommand s).fresh = s.fresh + freeSlots := rfl

@[simp] theorem finish_comb : (finish s).comb = freeCombiner s.addrBits s.fresh s.comb.scratch := rfl
@[simp] theorem finish_engine : (finish s).engine = freeEngine s.fresh := rfl
@[simp] theorem finish_regs :
    (finish s).regs = { s.regs with
      status := .ok
      ctrOut := if s.comb.opk = .enc then counterOf s.engine.t else s.regs.ctrOut } := rfl
@[simp] theorem finish_mem : (finish s).mem = s.mem := rfl
@[simp] theorem finish_addrBits : (finish s).addrBits = s.addrBits := rfl
@[simp] theorem finish_regions : (finish s).regions = s.regions := rfl
@[simp] theorem finish_events : (finish s).events = s.events := rfl
@[simp] theorem finish_hostRead : (finish s).hostRead = s.hostRead := rfl
@[simp] theorem finish_fresh : (finish s).fresh = s.fresh + freeSlots := rfl

@[simp] theorem resetCore_engine : (resetCore s).engine = freeEngine s.fresh := rfl
@[simp] theorem resetCore_comb : (resetCore s).comb = freeCombiner s.addrBits s.fresh zeroBlock := rfl
@[simp] theorem resetCore_regs : (resetCore s).regs = HostRegs.reset := rfl
@[simp] theorem resetCore_mem : (resetCore s).mem = s.mem := rfl
@[simp] theorem resetCore_addrBits : (resetCore s).addrBits = s.addrBits := rfl
@[simp] theorem resetCore_regions : (resetCore s).regions = s.regions := rfl
@[simp] theorem resetCore_events : (resetCore s).events = s.events := rfl
@[simp] theorem resetCore_hostRead : (resetCore s).hostRead = s.hostRead := rfl
@[simp] theorem resetCore_fresh : (resetCore s).fresh = s.fresh + freeSlots := rfl

variable (r : HostReg)

@[simp] theorem hostReadReg_engine : (hostReadReg r s).engine = s.engine := rfl
@[simp] theorem hostReadReg_comb : (hostReadReg r s).comb = s.comb := rfl
@[simp] theorem hostReadReg_regs : (hostReadReg r s).regs = s.regs := rfl
@[simp] theorem hostReadReg_mem : (hostReadReg r s).mem = s.mem := rfl
@[simp] theorem hostReadReg_addrBits : (hostReadReg r s).addrBits = s.addrBits := rfl
@[simp] theorem hostReadReg_regions : (hostReadReg r s).regions = s.regions := rfl
@[simp] theorem hostReadReg_events : (hostReadReg r s).events = s.events := rfl
@[simp] theorem hostReadReg_hostRead : (hostReadReg r s).hostRead = readReg s.regs r := rfl
@[simp] theorem hostReadReg_fresh : (hostReadReg r s).fresh = s.fresh := rfl

@[simp] theorem hostMov_engine : (hostMov s).engine = s.engine := rfl
@[simp] theorem hostMov_comb : (hostMov s).comb = s.comb := rfl
@[simp] theorem hostMov_regs : (hostMov s).regs = { s.regs with ctrIn := s.regs.ctrOut } := by
  simp [hostMov, hostReadReg, storeReg, readReg]
@[simp] theorem hostMov_mem : (hostMov s).mem = s.mem := rfl
@[simp] theorem hostMov_addrBits : (hostMov s).addrBits = s.addrBits := rfl
@[simp] theorem hostMov_regions : (hostMov s).regions = s.regions := rfl
@[simp] theorem hostMov_events : (hostMov s).events = s.events := rfl
@[simp] theorem hostMov_hostRead : (hostMov s).hostRead = s.regs.ctrOut.toNat := rfl
@[simp] theorem hostMov_fresh : (hostMov s).fresh = s.fresh := rfl

variable (v : Nat)

@[simp] theorem placeCommand_engine : (placeCommand s v).engine = s.engine := rfl
@[simp] theorem placeCommand_comb : (placeCommand s v).comb = { s.comb with phase := .idle } := rfl
@[simp] theorem placeCommand_regs : (placeCommand s v).regs = s.regs := rfl
@[simp] theorem placeCommand_mem : (placeCommand s v).mem = s.mem := rfl
@[simp] theorem placeCommand_addrBits : (placeCommand s v).addrBits = s.addrBits := rfl
@[simp] theorem placeCommand_regions : (placeCommand s v).regions = s.regions := rfl
@[simp] theorem placeCommand_events : (placeCommand s v).events = .wr .cmd v :: s.events := rfl
@[simp] theorem placeCommand_hostRead : (placeCommand s v).hostRead = s.hostRead := rfl
@[simp] theorem placeCommand_fresh : (placeCommand s v).fresh = s.fresh := rfl

end Sys2Proof.Machine
end

