-- ==== Sys2Proof/Laws/Ops.lean ====
section
/-! SUPPORT. What the shared operations can do: one lemma each, cited instead of unfolding. -/

namespace Sys2Proof.Machine

section Outcomes

variable {α β : Type}

@[simp] theorem andThen_next (a : α) (f : α → Host.Outcome β Fault Refusal) : andThen (.next a) f = f a := rfl
@[simp] theorem andThen_fault (r : Fault) (f : α → Host.Outcome β Fault Refusal) : andThen (.fault r) f = .fault r := rfl
@[simp] theorem andThen_refused (r : Refusal) (f : α → Host.Outcome β Fault Refusal) :
    andThen (.refused r) f = .refused r := rfl

/-- A sequence of two statements goes on exactly when both do. -/
theorem andThen_eq_next {o : Host.Outcome α Fault Refusal} {f : α → Host.Outcome β Fault Refusal} {b : β} :
    andThen o f = .next b ↔ ∃ a, o = .next a ∧ f a = .next b := by
  cases o <;> simp

/-- A sequence of two statements faults exactly when its first does, or its second does after the first. -/
theorem andThen_eq_fault {o : Host.Outcome α Fault Refusal} {f : α → Host.Outcome β Fault Refusal} {r : Fault} :
    andThen o f = .fault r ↔ o = .fault r ∨ ∃ a, o = .next a ∧ f a = .fault r := by
  cases o <;> simp

end Outcomes

/-- No address of a run is unadmitted exactly when all are admitted. -/
theorem firstUnadmitted_eq_none (rs : List Region) (a n : Nat) :
    firstUnadmitted rs a n = none ↔ ∀ i < n, admits rs (a + i) = true := by
  induction n generalizing a with
  | zero => simp [firstUnadmitted]
  | succ n ih =>
    rw [firstUnadmitted]
    constructor
    · intro h i hi
      split at h
      · rename_i ha
        cases i with
        | zero => simpa using ha
        | succ i =>
          have := (ih (a + 1)).1 h i (by omega)
          rwa [show a + 1 + i = a + (i + 1) by omega] at this
      · simp at h
    · intro h
      rw [if_pos (by simpa using h 0 (by omega)), ih]
      intro i hi
      rw [show a + 1 + i = a + (i + 1) by omega]
      exact h (i + 1) (by omega)

/-- The address a stuck access names lies in the run and is not admitted. -/
theorem firstUnadmitted_eq_some {rs : List Region} {a n b : Nat} (h : firstUnadmitted rs a n = some b) :
    ∃ i < n, b = a + i ∧ admits rs b = false := by
  induction n generalizing a with
  | zero => simp [firstUnadmitted] at h
  | succ n ih =>
    rw [firstUnadmitted] at h
    split at h
    · obtain ⟨i, hi, rfl, hb⟩ := ih h
      exact ⟨i + 1, by omega, by omega, hb⟩
    · rename_i ha
      cases h
      exact ⟨0, by omega, rfl, by simpa using ha⟩

/-- When an access is defined (R56, R57). -/
abbrev AccessOk (w : Nat) (rs : List Region) (addr n : Nat) : Prop :=
  addr + n ≤ 2 ^ w ∧ ∀ i < n, admits rs (addr + i) = true

/-- An access goes on exactly when it is defined. -/
theorem guardAccess_eq_next {α : Type} {w : Nat} {rs : List Region} {addr n : Nat} {k : Host.Outcome α Fault Refusal} {a : α} :
    guardAccess w rs addr n k = .next a ↔ AccessOk w rs addr n ∧ k = .next a := by
  unfold guardAccess AccessOk
  rw [← firstUnadmitted_eq_none]
  by_cases h : 2 ^ w < addr + n
  · simp only [h, if_true, reduceCtorEq, false_iff]
    omega
  · rw [if_neg h]
    cases firstUnadmitted rs addr n with
    | none => simp only [and_true]; exact ⟨fun h' => ⟨by omega, h'⟩, fun h' => h'.2⟩
    | some b => simp

/-- A defined access is not stopped. -/
theorem guardAccess_of_ok {α : Type} {w : Nat} {rs : List Region} {addr n : Nat} (k : Host.Outcome α Fault Refusal)
    (h : AccessOk w rs addr n) : guardAccess w rs addr n k = k := by
  unfold guardAccess
  rw [if_neg (by omega), (firstUnadmitted_eq_none _ _ _).2 h.2]

/-- `MemRead` answers the bytes exactly when the access is defined (R56). -/
theorem memRead_eq_next {s : State} {addr n : Nat} {bs : List Byte} :
    memRead s addr n = .next bs ↔ AccessOk s.addrBits s.regions addr n ∧ bs = readBytes s.mem addr n := by
  unfold memRead
  rw [guardAccess_eq_next]
  simp [eq_comm]

/-- `MemWrite` goes on exactly when the access is defined, and changes memory alone (R57). -/
theorem memWrite_eq_next {s t : State} {addr : Nat} {bs : List Byte} :
    memWrite s addr bs = .next t ↔
      AccessOk s.addrBits s.regions addr bs.length ∧ t = { s with mem := writeBytes s.mem addr bs } := by
  unfold memWrite
  rw [guardAccess_eq_next]
  simp [eq_comm]

theorem memRead_of_ok {s : State} {addr n : Nat} (h : AccessOk s.addrBits s.regions addr n) :
    memRead s addr n = .next (readBytes s.mem addr n) :=
  guardAccess_of_ok _ h

theorem memWrite_of_ok {s : State} {addr : Nat} {bs : List Byte} (h : AccessOk s.addrBits s.regions addr bs.length) :
    memWrite s addr bs = .next { s with mem := writeBytes s.mem addr bs } :=
  guardAccess_of_ok _ h

/-- `MemWrite` keeps the canonical form of memory. -/
theorem memWrite_wf {s t : State} {addr : Nat} {bs : List Byte} (hw : Memory.wf s.mem = true)
    (h : memWrite s addr bs = .next t) : Memory.wf t.mem = true := by
  obtain ⟨-, rfl⟩ := memWrite_eq_next.1 h
  exact writeBytes_wf hw addr bs

/-- `MemWrite` keeps memory inside the address space. -/
theorem memWrite_fits {s t : State} {addr : Nat} {bs : List Byte} (hm : Memory.fits s.addrBits s.mem = true)
    (h : memWrite s addr bs = .next t) : Memory.fits t.addrBits t.mem = true := by
  obtain ⟨hok, rfl⟩ := memWrite_eq_next.1 h
  exact writeBytes_fits hm hok.1

/-- An access below the top stops exactly at the first address that is not admitted. -/
theorem guardAccess_cases {α : Type} {w : Nat} {rs : List Region} {addr n : Nat} (k : Host.Outcome α Fault Refusal)
    (h : addr + n ≤ 2 ^ w) :
    (AccessOk w rs addr n ∧ guardAccess w rs addr n k = k) ∨
    ∃ i < n, admits rs (addr + i) = false ∧ guardAccess w rs addr n k = .fault (.notAdmitted (addr + i)) := by
  unfold guardAccess
  rw [if_neg (Nat.not_lt.2 h)]
  cases hf : firstUnadmitted rs addr n with
  | none => exact .inl ⟨⟨h, (firstUnadmitted_eq_none _ _ _).1 hf⟩, rfl⟩
  | some b =>
    obtain ⟨i, hi, rfl, hb⟩ := firstUnadmitted_eq_some hf
    exact .inr ⟨i, hi, hb, rfl⟩

/-- A register write goes on exactly when it is ignored or fits, and changes registers alone (R41). -/
theorem writeReg_eq_next {r : HostReg} {v : Nat} {s t : State} :
    writeReg r v s = .next t ↔
      (readOnly r = true ∨ v < 2 ^ regWidth s.addrBits r) ∧ t = { s with regs := storeReg s.regs r v } := by
  unfold writeReg
  by_cases h : (readOnly r || decide (v < 2 ^ regWidth s.addrBits r)) = true
  · rw [if_pos h, Host.Outcome.next.injEq]
    rw [Bool.or_eq_true, decide_eq_true_eq] at h
    exact ⟨fun ht => ⟨h, ht.symm⟩, fun ht => ht.2.symm⟩
  · rw [if_neg h]
    rw [Bool.or_eq_true, decide_eq_true_eq] at h
    constructor
    · intro ht
      cases ht
    · intro ht
      exact absurd ht.1 h

/-- A read-only register discards what is written (R40, R41). -/
theorem storeReg_of_readOnly {g : HostRegs} {r : HostReg} {v : Nat} (h : readOnly r = true) : storeReg g r v = g := by
  cases r <;> simp_all [readOnly, storeReg]

/-- A free address fits (R27). -/
theorem freeAddr_lt (w d i : Nat) : freeAddr w d i < 2 ^ w := Nat.mod_lt _ (Nat.two_pow_pos w)

@[simp] theorem isIdle_iff {s : State} : isIdle s = true ↔ s.comb.phase = .idle := by simp [isIdle]

end Sys2Proof.Machine
end

