-- ==== Sys2Proof/Laws/PerInstr.lean ====
section
/-! SUPPORT. A family of statements about the commands as syntax: the word of a command matches its row of the opcode table
(spec/30_encoding.md R72). -/

namespace Sys2Proof.Laws.MatchMask

/-- The mask of a command's row (R72). -/
def mask : Instr → Word
  | .encrypt _ => 0xFFFF00FF
  | .decrypt => 0xFFFFFFFF

/-- The match value of a command's row (R72). -/
def value : Instr → Word
  | .encrypt _ => 0x00000001
  | .decrypt => 0x00000002

/-- The word of a well-formed command selects the command's own row. -/
def Statement (i : Instr) : Prop := i.wf = true → encode i &&& mask i = value i

theorem encrypt (rounds : Nat) : Statement (.encrypt rounds) := by
  intro h
  simp only [Instr.wf, decide_eq_true_eq] at h
  have all : ∀ r : Fin 256, encode (.encrypt r.val) &&& mask (.encrypt r.val) = value (.encrypt r.val) := by decide +kernel
  exact all ⟨rounds, h⟩

theorem decrypt : Statement .decrypt := by
  intro _
  decide

end Sys2Proof.Laws.MatchMask
end

