-- ==== Sys2Proof/Laws/Sequencer.lean ====
section
/-! SUPPORT. What each transition of the sequencer can do, said once: cited instead of unfolding. -/

namespace Sys2Proof.Machine

/-- ISSUE goes on in exactly two ways: it raises what VALIDATE found, or it hands the command to the sequencer. -/
theorem issueCommand_eq_next {kind : CmdKind} {rounds : Nat} {s t : State} :
    issueCommand kind rounds s = .next t ↔ isIdle s = true ∧
      ((∃ e, validate rounds s.regs = some e ∧ t = raiseFromValidate e s) ∨
       (validate rounds s.regs = none ∧ contractBreach s.addrBits s.regs = none ∧
        t = { s with comb := { s.comb with opk := kind, phase := .issued rounds } })) := by
  unfold issueCommand
  by_cases hi : isIdle s = true
  · rw [if_pos hi]
    cases hv : validate rounds s.regs with
    | some e => simp [hi, eq_comm]
    | none => cases hc : contractBreach s.addrBits s.regs <;> simp [hi, eq_comm]
  · simp [hi]

/-- ISSUE never faults: it accesses no memory. -/
theorem issueCommand_ne_fault (kind : CmdKind) (rounds : Nat) (s : State) (r : Fault) :
    issueCommand kind rounds s ≠ .fault r := by
  unfold issueCommand
  split
  · split
    · simp
    · split <;> simp
  · simp

/-- What LATCH leaves (R128). -/
def latched (rounds : Nat) (s : State) : State :=
  { s with
    engine := { s.engine with
      k := wordsLE 8 (readBytes s.mem s.regs.keyAddr 32)
      n := wordsLE 2 (readBytes s.mem s.regs.nonceAddr 8)
      t := counterWords s.regs.ctrIn
      rc := BitVec.ofNat 5 rounds }
    comb := { s.comb with
      phase := .run
      ia := s.regs.inAddr
      oa := s.regs.outAddr
      len := s.regs.inLen
      off := 0 } }

/-- LATCH goes on exactly when key and nonce can be read. -/
theorem latch_eq_next {rounds : Nat} {s t : State} :
    latch rounds s = .next t ↔ AccessOk s.addrBits s.regions s.regs.keyAddr 32 ∧ AccessOk s.addrBits s.regions s.regs.nonceAddr 8 ∧
      t = latched rounds s := by
  simp only [latch, andThen_eq_next, memRead_eq_next, Config.keySize, Config.nonceSize, Host.Outcome.next.injEq]
  constructor
  · rintro ⟨kb, ⟨hk, rfl⟩, nb, ⟨hn, rfl⟩, rfl⟩
    exact ⟨hk, hn, rfl⟩
  · rintro ⟨hk, hn, rfl⟩
    exact ⟨_, ⟨hk, rfl⟩, _, ⟨hn, rfl⟩, rfl⟩

/-- The addresses of the next chunk of input and of output. -/
def inAt (s : State) : Nat := s.comb.ia + s.comb.off
def outAt (s : State) : Nat := s.comb.oa + s.comb.off

/-- The keystream block the next chunk is combined with. -/
def chunkKeystream (s : State) : Block := (block s.engine).ks

/-- What FULLSTEP writes (R130). -/
def fullOutput (s : State) : List Byte :=
  (xor64 (padBlock (readBytes s.mem (inAt s) 64)) (chunkKeystream s)).toList

@[simp] theorem length_fullOutput (s : State) : (fullOutput s).length = 64 := by simp [fullOutput]

/-- What FULLSTEP leaves (R130). -/
def afterFull (s : State) : State :=
  { s with
    engine := block s.engine
    mem := writeBytes s.mem (outAt s) (fullOutput s)
    comb := { s.comb with off := s.comb.off + 64 } }

/-- FULLSTEP goes on exactly when its chunk can be read and written. -/
theorem fullStep_eq_next {s t : State} :
    fullStep s = .next t ↔ AccessOk s.addrBits s.regions (inAt s) 64 ∧ AccessOk s.addrBits s.regions (outAt s) 64 ∧ t = afterFull s := by
  simp only [fullStep, andThen_eq_next, memRead_eq_next, memWrite_eq_next, Config.blockSize, Host.Outcome.next.injEq,
    Vector.length_toList]
  constructor
  · rintro ⟨bs, ⟨hr, rfl⟩, u, ⟨hw, rfl⟩, rfl⟩
    exact ⟨hr, hw, by simp only [afterFull, fullOutput, chunkKeystream, inAt, outAt]⟩
  · rintro ⟨hr, hw, rfl⟩
    exact ⟨_, ⟨hr, rfl⟩, _, ⟨hw, rfl⟩, by simp only [afterFull, fullOutput, chunkKeystream, inAt, outAt]⟩

/-- How many bytes are left, `LEN - OFF`. -/
def remaining (s : State) : Nat := s.comb.len - s.comb.off

/-- What PARTSTEP writes (R131). -/
def partOutput (s : State) : List Byte :=
  (xor64 (padBlock (readBytes s.mem (inAt s) (remaining s))) (chunkKeystream s)).toList.take (remaining s)

/-- What PARTSTEP leaves (R131). -/
def afterPart (s : State) : State :=
  { s with
    engine := block s.engine
    mem := writeBytes s.mem (outAt s) (partOutput s)
    comb := { s.comb with scratch := zeroBlock, off := s.comb.len } }

/-- PARTSTEP goes on exactly when its bytes can be read and written. -/
theorem partStep_eq_next {s t : State} :
    partStep s = .next t ↔ AccessOk s.addrBits s.regions (inAt s) (remaining s) ∧ AccessOk s.addrBits s.regions (outAt s) (partOutput s).length ∧
      t = afterPart s := by
  simp only [partStep, andThen_eq_next, memRead_eq_next, memWrite_eq_next, Host.Outcome.next.injEq]
  constructor
  · rintro ⟨bs, ⟨hr, rfl⟩, u, ⟨hw, rfl⟩, rfl⟩
    exact ⟨hr, hw, by simp only [afterPart, partOutput, chunkKeystream, inAt, outAt, remaining]⟩
  · rintro ⟨hr, hw, rfl⟩
    exact ⟨_, ⟨hr, rfl⟩, _, ⟨hw, rfl⟩, by simp only [afterPart, partOutput, chunkKeystream, inAt, outAt, remaining]⟩

theorem length_partOutput {s : State} (h : remaining s ≤ 64) : (partOutput s).length = remaining s := by
  simp [partOutput, h]

/-- With 64 or more bytes left the sequencer does a full chunk (R129). -/
theorem seqStep_full {s : State} (hp : s.comb.phase = .run) (h : 64 ≤ remaining s) : seqStep s = fullStep s := by
  simp only [seqStep, hp, nextChunk, fullChunkLeft_iff.2 h, if_true]

/-- With 1 to 63 bytes left it does the partial chunk (R129). -/
theorem seqStep_part {s : State} (hp : s.comb.phase = .run) (h : remaining s < 64) (h' : 0 < remaining s) :
    seqStep s = partStep s := by
  have hf : ¬ fullChunkLeft s.comb.len s.comb.off = true := mt fullChunkLeft_iff.1 (Nat.not_le.2 h)
  simp only [seqStep, hp, nextChunk, hf, bytesLeft_iff.2 h', if_true, if_false, Bool.false_eq_true]

/-- With no byte left it finishes (R129). -/
theorem seqStep_finish {s : State} (hp : s.comb.phase = .run) (h : remaining s = 0) : seqStep s = .next (finish s) := by
  have hf : ¬ fullChunkLeft s.comb.len s.comb.off = true :=
    mt fullChunkLeft_iff.1 (Nat.not_le.2 (show remaining s < 64 by omega))
  have hb : ¬ bytesLeft s.comb.len s.comb.off = true :=
    mt bytesLeft_iff.1 (Nat.not_lt.2 (show remaining s ≤ 0 by omega))
  simp only [seqStep, hp, nextChunk, hf, hb, if_false, Bool.false_eq_true]

/-- One transition of the sequencer: it stands still, latches, does a full chunk, does the partial chunk, or finishes. -/
theorem seqStep_cases {s t : State} (h : seqStep s = .next t) :
    (s.comb.phase = .idle ∧ t = s) ∨
    (∃ rounds, s.comb.phase = .issued rounds ∧ latch rounds s = .next t) ∨
    (s.comb.phase = .run ∧ 64 ≤ remaining s ∧ fullStep s = .next t) ∨
    (s.comb.phase = .run ∧ 0 < remaining s ∧ remaining s < 64 ∧ partStep s = .next t) ∨
    (s.comb.phase = .run ∧ remaining s = 0 ∧ t = finish s) := by
  unfold seqStep at h
  split at h
  · rename_i hp
    cases h
    exact .inl ⟨hp, rfl⟩
  · rename_i r hp
    exact .inr (.inl ⟨r, hp, h⟩)
  · rename_i hp
    unfold nextChunk at h
    split at h
    · rename_i hf
      exact .inr (.inr (.inl ⟨hp, by simpa only [remaining, fullChunkLeft, decide_eq_true_eq, Nat.not_le] using hf, h⟩))
    · rename_i hf
      have hlt : remaining s < 64 := by simpa only [remaining, fullChunkLeft, decide_eq_true_eq, Nat.not_le] using hf
      split at h
      · rename_i hb
        exact .inr (.inr (.inr (.inl ⟨hp, by simpa only [remaining, bytesLeft, decide_eq_true_eq] using hb, hlt, h⟩)))
      · rename_i hb
        cases h
        exact .inr (.inr (.inr (.inr ⟨hp, by simpa only [remaining, bytesLeft, decide_eq_true_eq, Nat.not_lt, Nat.le_zero] using hb, rfl⟩)))

/-- A command goes on exactly when ISSUE does and the sequencer runs on from there. -/
theorem runCommand_eq_next {kind : CmdKind} {rounds : Nat} {s t : State} :
    runCommand kind rounds s = .next t ↔
      ∃ u, issueCommand kind rounds s = .next u ∧ runSequencer (commandSteps s.regs) u = .next t := by
  unfold runCommand
  exact andThen_eq_next

/-- An idle core is done: the sequencer does nothing more. -/
theorem runSequencer_idle {s : State} (h : isIdle s = true) (fuel : Nat) : runSequencer fuel s = .next s := by
  cases fuel <;> simp only [runSequencer, h, if_true]

/-- What every transition of the sequencer keeps, every run of it keeps. -/
theorem runSequencer_keeps {P : State → Prop} (hP : ∀ s t, P s → seqStep s = .next t → P t) {fuel : Nat} {s t : State}
    (hs : P s) (h : runSequencer fuel s = .next t) : P t := by
  induction fuel generalizing s with
  | zero => cases h; exact hs
  | succ fuel ih =>
    rw [runSequencer] at h
    split at h
    · cases h; exact hs
    · obtain ⟨u, hu, ht⟩ := andThen_eq_next.1 h
      exact ih (hP s u hs hu) ht

end Sys2Proof.Machine
end

