-- ==== Sys2Proof/Laws/Step.lean ====
section
/-! SUPPORT. One step, a run of steps, and the accesses of the world outside, said once. -/

namespace Sys2Proof.Machine

/-- With nothing pending a step is the sequencer's (R129). -/
theorem step_of_no_event {s : State} (h : s.events = []) : step s = seqStep s := by
  simp only [step, turn, h]

/-- With an action pending a step is that action. -/
theorem step_of_event {s : State} {e : Event} {es : List Event} (h : s.events = e :: es) :
    step s = deliver e { s with events := es } := by
  simp only [step, turn, h]

/-- A run of no steps. -/
theorem core_run_zero (s : State) : Host.Core.run Sys2Proof.core 0 s = .next s := rfl

/-- A run is its first step and then the run of the rest. -/
theorem core_run_succ (n : Nat) (s : State) :
    Host.Core.run Sys2Proof.core (n + 1) s = andThen (step s) (Host.Core.run Sys2Proof.core n) := by
  have hs : Sys2Proof.core.step s = step s := rfl
  cases h : step s with
  | next t => simp only [Host.Core.run, hs, h, andThen]
  | fault r => simp only [Host.Core.run, hs, h, andThen]; rfl
  | refused r => simp only [Host.Core.run, hs, h, andThen]; rfl

/-- Another agent's access goes on exactly when its address exists and it does not race (R66). -/
theorem agentAccess_eq_next {a : Nat} {races : Bool} {s t u : State} :
    agentAccess a races s t = .next u ↔ a < 2 ^ s.addrBits ∧ (isIdle s = true ∨ races = false) ∧ u = t := by
  unfold agentAccess
  by_cases ha : 2 ^ s.addrBits ≤ a
  · rw [if_pos ha]
    exact ⟨nofun, fun h => absurd h.1 (Nat.not_lt.2 ha)⟩
  · rw [if_neg ha]
    cases isIdle s <;> cases races <;> simp [Nat.not_le.1 ha, eq_comm]

/-- A store of another agent changes one byte of memory alone (R66). -/
theorem agentStore_eq_next {a : Nat} {b : Byte} {s t : State} :
    agentStore a b s = .next t ↔
      a < 2 ^ s.addrBits ∧ (isIdle s = true ∨ storeRaces s.regs a = false) ∧ t = { s with mem := writeByte s.mem a b } :=
  agentAccess_eq_next

/-- A load of another agent changes what the host has read alone (R66). -/
theorem agentLoad_eq_next {a : Nat} {s t : State} :
    agentLoad a s = .next t ↔
      a < 2 ^ s.addrBits ∧ (isIdle s = true ∨ loadRaces s.regs a = false) ∧
      t = { s with hostRead := (readByte s.mem a).toNat } :=
  agentAccess_eq_next

/-- A store of another agent keeps the canonical form of memory, and memory inside the address space. -/
theorem agentStore_wf {a : Nat} {b : Byte} {s t : State} (hw : Memory.wf s.mem = true) (h : agentStore a b s = .next t) :
    Memory.wf t.mem = true := by
  obtain ⟨-, -, rfl⟩ := agentStore_eq_next.1 h
  exact writeByte_wf hw a b

theorem agentStore_fits {a : Nat} {b : Byte} {s t : State} (hm : Memory.fits s.addrBits s.mem = true)
    (h : agentStore a b s = .next t) : Memory.fits t.addrBits t.mem = true := by
  obtain ⟨ha, -, rfl⟩ := agentStore_eq_next.1 h
  exact writeByte_fits hm ha b

end Sys2Proof.Machine
end

