-- ==== Sys2Proof/Tests/Slice0.lean ====
section
/-! SUPPORT. Tests and witnesses. Expected numbers come from spec/30_encoding.md and spec/95_test_vectors.md; a witness theorem
shows a concrete state and operands that meet the hypotheses of one obligation, named in its docstring. -/

namespace Sys2Proof.Tests

open Sys2Proof Sys2Proof.Machine

set_option Elab.async false

/-! ### Helpers -/

/-- The test key `K1` and nonce `N1` of spec/95_test_vectors.md. -/
def key1 : List Byte := (List.range 32).map fun i => BitVec.ofNat 8 (i + 1)
def nonce1 : List Byte := (List.range 8).map fun i => BitVec.ofNat 8 (0xA1 + i)

/-- A block, and the sixteen words of a state, as one number, first byte or word first. -/
def blockNumber (b : Block) : Nat := b.toList.foldl (fun n x => 256 * n + x.toNat) 0
def wordsNumber (x : Words 16) : Nat := x.toList.foldl (fun n w => 2 ^ 32 * n + w.toNat) 0

/-- The input `p[i] = i mod 256`. -/
def ramp (n : Nat) : List Byte := (List.range n).map fun i => BitVec.ofNat 8 i

/-- The operand registers of the programs of spec/95_test_vectors.md section 4: `len` bytes from 0x200 to `out`. -/
def demoRegs (len out : Nat) : HostRegs :=
  { HostRegs.reset with
    outAddr := out
    outLen := len
    inAddr := 0x200
    inLen := len
    nonceAddr := 0x140
    nonceLen := 8
    keyAddr := 0x100
    keyLen := 32 }

/-- Reset, with `K1`, `N1` and an input in memory and the operand registers loaded. -/
def demo (input : List Byte) (out : Nat) : State :=
  { State.reset with
    regs := demoRegs input.length out
    mem := writeBytes (writeBytes (writeBytes [] 0x100 key1) 0x140 nonce1) 0x200 input }

/-- The demonstration state with other registers. -/
def demoWith (input : List Byte) (out : Nat) (f : HostRegs → HostRegs) : State :=
  { demo input out with regs := f (demoRegs input.length out) }

/-- The four input bytes of program P4. -/
def four : List Byte := [0x11, 0x22, 0x33, 0x44]

/-- A demonstration command in its chunk loop with `off` bytes done. -/
def running (input : List Byte) (off : Nat) : State :=
  { demo input 0x400 with
    engine := { Engine.reset with k := wordsLE 8 key1, n := wordsLE 2 nonce1, rc := 20 }
    comb := { Combiner.reset with
      phase := .run
      ia := 0x200
      oa := 0x400
      len := input.length
      off := off } }

/-- A state with a list of pending actions. -/
def pending (s : State) (es : List Event) : State := { s with events := es }

/-- The bytes a finished command left at an address, with STATUS and CTR_OUT. -/
def outcome (o : Host.Outcome State Fault Refusal) (a n : Nat) : Option (List Byte × StatusCode × Counter) :=
  (nextState o).map fun t => (readBytes t.mem a n, t.regs.status, t.regs.ctrOut)

/-- The address a stuck command needs, and why a command is refused. -/
def stuckAt (o : Host.Outcome State Fault Refusal) : Option Nat :=
  match o with
  | .next _ => none
  | .fault (.notAdmitted a) => some a
  | .refused _ => none
def refusalOf (o : Host.Outcome State Fault Refusal) : Option Refusal :=
  match o with
  | .next _ => none
  | .fault _ => none
  | .refused r => some r

/-! ### Well-formedness and the command word (30_encoding.md) -/

/-- An immediate of 255 fits the 8-bit field ROUNDS and 256 does not (R71). -/
theorem test_wf_encrypt : (Instr.encrypt 255).wf = true ∧ (Instr.encrypt 256).wf = false := by decide
theorem test_wf_decrypt : Instr.decrypt.wf = true := by decide

/-- R71: RSV1 = 0, ROUNDS = 20, RSV0 = 0, OP = 1. -/
theorem test_decode_encrypt_bits : decode (0b0000000000000000#16 ++ 0b00010100#8 ++ 0b0000#4 ++ 0b0001#4) = .instr (.encrypt 20) := by
  decide

/-- R71: RSV1 = 0, ROUNDS = 0, RSV0 = 0, OP = 2. -/
theorem test_decode_decrypt_bits : decode (0b0000000000000000#16 ++ 0b00000000#8 ++ 0b0000#4 ++ 0b0010#4) = .instr .decrypt := by
  decide

/-- The illegal words of section 3.4, each by the check of R75 that refuses it. -/
theorem test_decode_illegal :
    decode 0x00000000 = .illegal (.undefinedOp 0) ∧ decode 0x00000003 = .illegal (.undefinedOp 3) ∧
    decode 0x0000000F = .illegal (.undefinedOp 15) ∧ decode 0x00001402 = .illegal (.decryptRounds 20) ∧
    decode 0x00000102 = .illegal (.decryptRounds 1) ∧ decode 0x00011401 = .illegal .reservedBits ∧
    decode 0x80000001 = .illegal .reservedBits ∧ decode 0x00001411 = .illegal .reservedBits := by decide

theorem test_encode : encode (.encrypt 12) = 0x00000C01 ∧ encode .decrypt = 0x00000002 := by decide

theorem test_decodeTableWord :
    decodeTableWord 32 0x00000801 = some (.encrypt 8) ∧ decodeTableWord 32 2 = some .decrypt ∧
    decodeTableWord 32 3 = none := by decide

/-! ### Word operations, rounds, engine (95_test_vectors.md section 2) -/

theorem test_add32 : add32 0xC0A8787E 0x9FD1161D = 0x60798E9B ∧ add32 0xFFFFFFFF 0xFFFFFFFF = 0xFFFFFFFE := by decide
theorem test_xor32 : xor32 0xC0A8787E 0x9FD1161D = 0x5F796E63 := by decide
theorem test_rotl32 : rotl32 0x12345678 13 = 0x8ACF0246 ∧ rotl32 0x80000000 1 = 0x00000001 ∧ rotl32 1 31 = 0x80000000 := by
  decide
theorem test_le32 : le32 86 75 30 9 = 0x091E4B56 ∧ le32Inv 0x5BF6979A = #v[0x9A, 0x97, 0xF6, 0x5B] := by decide

theorem test_quarterRound :
    quarterRound ⟨1, 0, 0, 0⟩ = ⟨0x08008145, 0x00000080, 0x00010200, 0x20500000⟩ ∧
    quarterRound ⟨0xE7E8C006, 0xC4F9417D, 0x6479B4B2, 0x68C67137⟩ =
      ⟨0xE876D72B, 0x9361DFD5, 0xF1460244, 0x948541A3⟩ := by decide +kernel

/-- The state `x[i] = i`. -/
def iota : Words 16 := vecOf 16 fun i => BitVec.ofNat 32 i.val

theorem test_columnRound : wordsNumber (columnRound iota) =
    0x20560736C3E2C00100103002_00000D0300000604703B0FA607020004001A2407000C080800000309C0181C424621400881C1800D00061C0D0000080E903D18E2 := by
  decide +kernel

theorem test_rowRound : wordsNumber (rowRound iota) =
    0x881581CD0000018100030202_607060032351A005D8308D6F000004860009160700132A086672600B284D9A1C0000098B00000E8C001D360DA893200D586AA2CE := by
  decide +kernel

theorem test_doubleRound : wordsNumber (doubleRound iota) =
    0x5FF84399E8E8DC917DD7BE10_135421DB96C9D24FBDBF75D01A88D53C87D3E1128E085C1CE840980F10B5C5614A2EE5E89F51F8451E245252C952FFA0D7F6853F := by
  decide +kernel

theorem test_init : wordsNumber (initialState (wordsLE 8 key1) (wordsLE 2 nonce1) (counterWords 0x0807060504030201)) =
    0x617078650403020108070605_0C0B0A09100F0E0D3320646EA4A3A2A1A8A7A6A5040302010807060579622D3214131211181716151C1B1A19201F1E1D6B206574 := by
  decide +kernel

theorem test_block_20 : blockNumber (blockFn key1 nonce1 0x0807060504030201 20) =
    0x96519f46e370542979f956a1e95c90e6ddea71eae2325e5e86a3b3baa2d1894eaa6f040aa63f3fd656dbaaf5fb3be640046dbfb53c8a746c6fa5da730150ae46 := by
  decide +kernel

theorem test_block_12 : blockNumber (blockFn key1 nonce1 0x0807060504030201 12) =
    0xe8a93c70525733478943d6a2c4f5aecdf2512fe1c07871ae7f358e5c2151743ddcd658cd87ba9e6c05c9416220402c2452b34f3beec4158a2d6eaaa43d1ce0e7 := by
  decide +kernel

theorem test_block_8 : blockNumber (blockFn key1 nonce1 0xFFFFFFFFFFFFFFFF 8) =
    0x41bee9736c6edaa68973463af290546e548eaf280b8485f59d985630e24eb9827b2595471988b379c48631402a1cf306dc015aae3d36e5daf79516df15bf1a34 := by
  decide +kernel

/-- Both counter words are used: t[0] = 0, t[1] = 1, with the zero key and nonce. -/
theorem test_block_high_counter : blockNumber (blockFn (List.replicate 32 0) (List.replicate 8 0) 0x0000000100000000 20) =
    0xb65fc777c4f950ec0274ff0ffbb0a6e3ededf78477e94945e87f26e3162bf6a1050933421833f249da1162db6e92a7678505190c80dc46350b81e831f974b28c := by
  decide +kernel

/-- The engine's BLOCK, as a transition, gives the same bytes as BlockFn and the next counter (section 2.4). -/
theorem test_block_transition :
    let e := block { Engine.reset with k := wordsLE 8 key1, n := wordsLE 2 nonce1, t := counterWords 1, rc := 20 }
    blockNumber e.ks =
      0x41951ea0b9281a1293c2e50f10470cb0fff530eb907b01b91306c3e396cd13aea536ac5b6d4d83059c3c9a34f2a5bef858a1bbad1f04081ebe12af090d37cf1d ∧
    counterOf e.t = 2 := by decide +kernel

theorem test_ctrInc :
    counterOf (nextCounter (counterWords 0x00000000FFFFFFFF)) = 0x0000000100000000 ∧
    counterOf (nextCounter (counterWords 0xFFFFFFFF00000000)) = 0xFFFFFFFF00000001 ∧
    counterOf (nextCounter (counterWords 0xFFFFFFFFFFFFFFFF)) = 0 := by decide

/-! ### The commands, and one step of the machine -/

/-- Program P4, first command. -/
theorem test_encrypt_four_bytes :
    outcome (exec (.encrypt 20) (demo four 0x400)) 0x400 4 = some ([0xd9, 0x9d, 0x3d, 0x79], .ok, 1) := by decide +kernel

/-- Section 3.1, L = 65: a full chunk and a partial chunk of one byte; bytes 63 and 64 of the output. -/
theorem test_encrypt_across_blocks :
    outcome (exec (.encrypt 20) (demo (ramp 65) 0x400)) 0x43F 2 = some ([0x14, 0x01], .ok, 2) := by decide +kernel

/-- Program P4, last command: DECRYPT of the same input leaves CTR_OUT alone. -/
theorem test_decrypt_four_bytes :
    outcome (exec .decrypt (demoWith four 0x400 fun g => { g with ctrOut := 7 })) 0x400 4 =
      some ([0xd9, 0x9d, 0x3d, 0x79], .ok, 7) := by decide +kernel

/-- Section 3.4: `OUT_LEN = 5`, DECRYPT. -/
theorem test_decrypt_wrong_length :
    outcome (exec .decrypt (demoWith four 0x400 fun g => { g with outLen := 5 })) 0x400 4 =
      some ([0, 0, 0, 0], .invalidLength, 0) := by decide +kernel

/-- Section 3.4, straight after reset (R173), as one step of the machine with the word placed by `withFetchWord`. -/
theorem test_step_after_reset :
    (nextState (step (State.reset.withFetchWord 32 0x00001401))).map (fun t => t.regs.status) = some .invalidLength ∧
    (nextState (step (State.reset.withFetchWord 32 0x00000002))).map (fun t => t.regs.status) = some .invalidLength ∧
    (nextState (step (State.reset.withFetchWord 32 0x00000000))).map (fun t => t.regs.status) = some .illegalCommand := by
  decide +kernel

/-- R79: the ranges of the numbers of a statement. -/
theorem test_stmt_wf :
    (Stmt.encrypt ⟨0, 0⟩ ⟨0, 0⟩ ⟨0, 0⟩ ⟨0, 0⟩ none (some 255)).wf = true ∧
    (Stmt.encrypt ⟨0, 0⟩ ⟨0, 0⟩ ⟨0, 0⟩ ⟨0, 0⟩ none (some 256)).wf = false ∧
    (Stmt.decrypt ⟨0, 0⟩ ⟨0, 0⟩ ⟨0, 0⟩ ⟨0, 0⟩ (some (.number (2 ^ 64)))).wf = false := by decide

/-- The expansion of a statement (R82, program P1). -/
theorem test_expand :
    expand (.encrypt ⟨0x400, 64⟩ ⟨0x200, 64⟩ ⟨0x140, 8⟩ ⟨0x100, 32⟩ (some (.number 0)) (some 20)) =
      [.wr .outAddr 0x400, .wr .outLen 64, .wr .inAddr 0x200, .wr .inLen 64, .wr .nonceAddr 0x140, .wr .nonceLen 8,
       .wr .keyAddr 0x100, .wr .keyLen 32, .wr .ctrIn 0, .wr .cmd 0x00001401] := by decide

/-! ### Witnesses: word operations and engine -/

/-- Rotl32IsCircularLeftRotation: an amount for each clause. -/
theorem witness_rotl32 : (0 : Fin 32).val = 0 ∧ 1 ≤ (1 : Fin 32).val ∧ 1 ≤ (31 : Fin 32).val := by decide

/-- LittleEndianConversionsAreInverse: the last word of an eight-byte sequence. -/
theorem witness_le32 : 4 * 1 + 3 < ([1, 2, 3, 4, 5, 6, 7, 8] : List Byte).length ∧ 3 < 4 := by decide

/-- Xor32ActsOnEachBit, Xor64ActsOnEachByteAndEachLane, SaveCopiesAndFeedforwardAdds, SerializeIsLittleEndian: the last
index of each range. -/
theorem witness_indices : 31 < 32 ∧ 63 < 64 ∧ 15 < 16 ∧ 3 < 4 := by decide

/-- QuarterRoundIsSequentialAndBijective: the registers of group C3, and one that is none of them. -/
theorem witness_quarterRound :
    let g : Group := ⟨15, 3, 7, 11⟩
    g.p ≠ g.q ∧ g.p ≠ g.r ∧ g.p ≠ g.s ∧ g.q ≠ g.r ∧ g.q ≠ g.s ∧ g.r ≠ g.s ∧
      (0 : Fin 16) ≠ g.p ∧ (0 : Fin 16) ≠ g.q ∧ (0 : Fin 16) ≠ g.r ∧ (0 : Fin 16) ≠ g.s := by decide

/-- QuarterRoundsOfARoundCommute: an order other than the listed one, for each round. -/
theorem witness_commute : columnGroups.reverse.Perm columnGroups ∧ rowGroups.reverse.Perm rowGroups :=
  ⟨List.reverse_perm _, List.reverse_perm _⟩

/-- BlockIsBlockFnOfTheCounter: an engine that holds `K1` and `N1`. -/
theorem witness_block :
    (running four 0).engine.k = wordsLE 8 key1 ∧ (running four 0).engine.n = wordsLE 2 nonce1 := by decide +kernel

/-- DecodeAndEncodeAgree: the extreme immediates, and words that decode. -/
theorem witness_encode :
    (Instr.encrypt 0).wf = true ∧ (Instr.encrypt 255).wf = true ∧ Instr.decrypt.wf = true ∧
    decode 0x0000FF01 = .instr (.encrypt 255) ∧ decode 0x00000002 = .instr .decrypt := by decide

/-- DecodeFollowsTheFields: a word for each clause, at the edge of its range. -/
theorem witness_fields :
    (0x00010001 / 2 ^ 16 ≠ 0) ∧ (0x00000011 / 2 ^ 4 % 2 ^ 4 ≠ 0) ∧
    (0x0000FF01 / 2 ^ 16 = 0 ∧ 0x0000FF01 / 2 ^ 4 % 2 ^ 4 = 0 ∧ 0x0000FF01 % 2 ^ 4 = 1) ∧
    (0x00000002 / 2 ^ 16 = 0 ∧ 0x00000002 / 2 ^ 4 % 2 ^ 4 = 0 ∧ 0x00000002 % 2 ^ 4 = 2 ∧ 0x00000002 / 2 ^ 8 % 2 ^ 8 = 0) ∧
    (0x00000102 / 2 ^ 16 = 0 ∧ 0x00000102 / 2 ^ 4 % 2 ^ 4 = 0 ∧ 0x00000102 % 2 ^ 4 = 2 ∧ 0x00000102 / 2 ^ 8 % 2 ^ 8 ≠ 0) ∧
    (0x00000003 / 2 ^ 16 = 0 ∧ 0x00000003 / 2 ^ 4 % 2 ^ 4 = 0 ∧ 0x00000003 % 2 ^ 4 ≠ 1 ∧ 0x00000003 % 2 ^ 4 ≠ 2) := by decide

/-! ### Witnesses: commands -/

/-- StepRunsTheDecodedCommand, IllegalWordOnlySetsStatus, ErrorsAreReportedInPriorityOrder: a word for each clause, and the
registers each clause asks for. -/
theorem witness_command_write :
    (isIdle (pending (demo four 0x400) [.wr .cmd (0x00000001 : Word).toNat]) = true ∧
      decode 0x00001401 = .instr (.encrypt 20) ∧ decode 0x00000003 = .illegal (.undefinedOp 3)) ∧
    (decode 0x00000A01 = .instr (.encrypt 10) ∧ ¬ LegalRounds (commandRounds (.encrypt 10)) ∧
      ValidLengths (demo four 0x400).regs ∧
      ¬ ValidLengths (demoWith four 0x400 fun g => { g with keyLen := 31 }).regs) := by decide +kernel

/-- EncryptWritesCombineAndNextCounter, DecryptWritesCombineAndKeepsCounter: a state for each of the two error clauses. -/
theorem witness_encrypt :
    (isIdle (demoWith four 0x400 fun g => { g with nonceLen := 7 }) = true ∧
      (demoWith four 0x400 fun g => { g with nonceLen := 7 }).comb.scratch = zeroBlock ∧
      ¬ ValidLengths (demoWith four 0x400 fun g => { g with nonceLen := 7 }).regs) ∧
    (Ready (demo four 0x400) ∧ ValidLengths (demo four 0x400).regs ∧ ¬ LegalRounds 21) := by decide +kernel

/-- The same two obligations, successful clause: one byte, a whole block, a block and a byte in place; each round count. -/
theorem witness_launch :
    Launch (demo [0x11] 0x400) ∧ Launch (demo (ramp 64) 0x400) ∧ Launch (demo (ramp 65) 0x200) ∧
      LegalRounds 20 ∧ LegalRounds 12 ∧ LegalRounds 8 := by decide +kernel

/-- The last buffer of the address space is in contract: it ends at 2^ADDR_BITS and does not wrap, for 64 and for 11 bits. -/
theorem witness_top :
    Launch (demo four 0xFFFFFFFFFFFFFFFC) ∧ Launch { demo four 0x7FC with addrBits := 11 } := by decide +kernel

/-- InvalidParameterIsForEncryptOnly, CommandsWriteOnlyTheOutputBuffer, CommandsKeepOperandRegisters,
CommandsEndIdleWithCleanScratch: ENCRYPT and DECRYPT answer a next state, also in an error. -/
theorem witness_next :
    (demo four 0x400).comb.scratch = zeroBlock ∧
    (nextState (exec (.encrypt 8) (demo four 0x400))).isSome = true ∧
    (nextState (exec .decrypt (demo four 0x400))).isSome = true ∧
    (nextState (exec (.encrypt 10) (demo four 0x400))).map (fun t => t.regs.status) = some .invalidParameter := by
  decide +kernel

/-- FailedCommandHasNoEffectButStatus: ENCRYPT and DECRYPT in a next state whose status is not OK. -/
theorem witness_failed :
    (nextState (exec (.encrypt 21) (demo four 0x400))).map (fun t => t.regs.status) = some .invalidParameter ∧
    (nextState (exec .decrypt (demoWith four 0x400 fun g => { g with keyLen := 33 }))).map (fun t => t.regs.status) =
      some .invalidLength := by decide +kernel

/-- ZeroLengthCommandWritesNothing: a state for each clause, with a key byte and a nonce byte that is not admitted. -/
theorem witness_zero_length :
    (Ready (demo [] 0x400) ∧ (demo [] 0x400).regs.inLen = 0 ∧ (demo [] 0x400).regs.outLen = 0 ∧
      (demo [] 0x400).regs.nonceLen = 8 ∧ (demo [] 0x400).regs.keyLen = 32 ∧ LegalRounds 8 ∧
      BuffersInContract 64 (demo [] 0x400).regs ∧ BuffersAdmitted (demo [] 0x400)) ∧
    (Ready { demo [] 0x400 with regions := [⟨0, 0x11F⟩] } ∧
      ¬ BufferAdmitted [⟨0, 0x11F⟩] (keyBuffer (demo [] 0x400).regs)) ∧
    (LegalRounds (commandRounds .decrypt) ∧ BufferAdmitted [⟨0, 0x147⟩] (keyBuffer (demo [] 0x400).regs) ∧
      ¬ BufferAdmitted [⟨0, 0x147⟩] (nonceBuffer (demo [] 0x400).regs)) ∧
    (Ready (demoWith [] 0x400 fun g => { g with keyLen := 16 }) ∧
      (demoWith [] 0x400 fun g => { g with keyLen := 16 }).regs.keyLen = 16) := by decide +kernel

/-- CombineUsesSuccessiveBlocks: the last byte of the first block, and the first byte of the second. -/
theorem witness_combine : 63 < 64 ∧ 64 * 0 + 63 < (ramp 65).length ∧ 64 * 1 + 0 < (ramp 65).length := by decide +kernel

/-- CombineContinuesAtBlockBoundaries: a first part of one block. -/
theorem witness_cut : (ramp 64).length % 64 = 0 := by decide +kernel

/-- EncryptTwiceInPlaceRestoresMemory, DecryptUndoesTwentyRoundEncrypt: an in-place command over a canonical memory. -/
theorem witness_in_place :
    Launch (demo (ramp 65) 0x200) ∧ LegalRounds 12 ∧ (demo (ramp 65) 0x200).regs.outAddr = (demo (ramp 65) 0x200).regs.inAddr ∧
    Memory.wf (demo (ramp 65) 0x200).mem = true := by decide +kernel

/-! ### Witnesses: where a command stops -/

/-- CommandIsStuckExactlyOnUnadmittedBuffers: the last output byte is not admitted. -/
theorem witness_stuck :
    stuckAt (exec (.encrypt 8) { demo four 0x400 with regions := [⟨0, 0x403⟩] }) = some 0x403 ∧
    stuckAt (exec .decrypt { demo four 0x400 with regions := [⟨0x101, 0x1000⟩] }) = some 0x100 := by decide +kernel

/-- BufferContractIsRefusedAsStated: a buffer that wraps by one byte, an output buffer one byte off the input buffer, on the
last key byte, and on the first nonce byte; and neither. -/
theorem witness_contract :
    (ValidLengths (demo four 0xFFFFFFFFFFFFFFFD).regs ∧ 2 ^ 64 < 0xFFFFFFFFFFFFFFFD + 4) ∧
    (ValidLengths (demo four 0x201).regs ∧ inside (outBuffer (demo four 0x201).regs) 0x203 = true ∧
      inside (inBuffer (demo four 0x201).regs) 0x203 = true) ∧
    (inside (outBuffer (demo four 0x11F).regs) 0x11F = true ∧ inside (keyBuffer (demo four 0x11F).regs) 0x11F = true) ∧
    (inside (outBuffer (demo four 0x13D).regs) 0x140 = true ∧ inside (nonceBuffer (demo four 0x13D).regs) 0x140 = true) ∧
    (Launch (demo four 0x204) ∧ LegalRounds (commandRounds .decrypt)) ∧
    refusalOf (exec .decrypt (demo four 0x201)) = some .bufferOverlap ∧
    refusalOf (exec .decrypt (demo four 0xFFFFFFFFFFFFFFFD)) = some .bufferWraps ∧
    refusalOf (exec .decrypt { demo four 0x7FD with addrBits := 11 }) = some .bufferWraps := by decide +kernel

/-- NothingIsIssuedWhileACommandRuns: both phases of a running command, with an action for each clause. -/
theorem witness_running :
    (running four 0).comb.phase ≠ .idle ∧
    (pending (running four 0) [.wr .cmd 2]).events = .wr .cmd 2 :: [] ∧
    ((pending (running four 0) [.wr .ctrIn 0]).events = .wr .ctrIn 0 :: [] ∧ HostReg.ctrIn ≠ .cmd) ∧
    (pending (running four 0) [.issue 2]).events = .issue 2 :: [] ∧
    (pending (running four 0) [.rd .status]).events = .rd .status :: [] ∧
    (pending (running four 0) [.mov]).events = .mov :: [] ∧
    ({ demo four 0x400 with comb := { Combiner.reset with phase := .issued 20 } } : State).comb.phase ≠ .idle := by
  decide +kernel

/-! ### Witnesses: the steps of the sequencer -/

/-- StepByStepRunEqualsOneStepRun: an idle core. -/
theorem witness_step_by_step : isIdle (demo (ramp 65) 0x400) = true := by decide +kernel

/-- LatchLoadsTheCommand: a command that has been issued. -/
theorem witness_latch :
    let s : State := { demo four 0x400 with comb := { Combiner.reset with phase := .issued 12 } }
    s.events = [] ∧ s.comb.phase = .issued 12 ∧ ValidLengths s.regs ∧ wraps s.addrBits (keyBuffer s.regs) = false ∧
      wraps s.addrBits (nonceBuffer s.regs) = false ∧ BufferAdmitted s.regions (keyBuffer s.regs) ∧
      BufferAdmitted s.regions (nonceBuffer s.regs) := by decide +kernel

/-- FullStepCombinesOneChunk: exactly 64 bytes left, after a first chunk. -/
theorem witness_full :
    let s := running (ramp 128) 64
    s.events = [] ∧ s.comb.phase = .run ∧ s.comb.len - s.comb.off = 64 ∧
      (∀ m < 64, admits s.regions (0x240 + m) = true) ∧ (∀ m < 64, admits s.regions (0x440 + m) = true) := by decide +kernel

/-- PartStepCombinesTheRemainingBytes: 63 bytes left, and 1 byte left after a first chunk. -/
theorem witness_part :
    ((running (ramp 63) 0).comb.phase = .run ∧
      (running (ramp 63) 0).comb.len - (running (ramp 63) 0).comb.off = 63) ∧
    ((running (ramp 65) 64).events = [] ∧
      (running (ramp 65) 64).comb.len - (running (ramp 65) 64).comb.off = 1 ∧
      admits (running (ramp 65) 64).regions 0x240 = true ∧ admits (running (ramp 65) 64).regions 0x440 = true) := by
  decide +kernel

/-- FinishReturnsCounterAndStatus: no byte left, for ENCRYPT and for DECRYPT. -/
theorem witness_finish :
    (running (ramp 65) 65).events = [] ∧ (running (ramp 65) 65).comb.phase = .run ∧
    (running (ramp 65) 65).comb.len = (running (ramp 65) 65).comb.off ∧ (running (ramp 65) 65).comb.opk = .enc ∧
    ({ (running (ramp 65) 65).comb with opk := .dec } : Combiner).opk = .dec := by decide +kernel

/-! ### Witnesses: invariants, reset, locality, memory, host -/

/-- StepKeepsTheInvariant: a state in the middle of a command meets the invariant, also with 11-bit addresses, and its step
goes on. -/
theorem witness_invariant :
    Inv (running (ramp 65) 64) ∧ Inv { running (ramp 65) 64 with addrBits := 11 } ∧ (nextState (step (running (ramp 65) 64))).isSome = true := by decide +kernel

/-- ResetLeavesTheStatedValues: a reset that strikes a running command. -/
theorem witness_reset : (pending (running (ramp 65) 64) [.reset]).events = .reset :: [] := by decide +kernel

/-- CommandRightAfterResetIsRejected: both ways to have been reset. -/
theorem witness_after_reset :
    (State.reset = State.reset ∨ ∃ u, State.reset = resetCore u) ∧
    (resetCore (running four 0) = State.reset ∨ ∃ u, resetCore (running four 0) = resetCore u) :=
  ⟨.inl rfl, .inr ⟨_, rfl⟩⟩

/-- ResetDuringCommandLeavesWholeChunks: no chunk, and all chunks, of a message of 65 bytes, for ENCRYPT and for DECRYPT. -/
theorem witness_reset_during :
    (Launch (pending (demo (ramp 65) 0x400) [.issue 0x00001401, .tick, .reset]) ∧
      decode 0x00001401 = .instr (.encrypt 20) ∧ LegalRounds (commandRounds (.encrypt 20)) ∧ 0 ≤ (65 + 63) / 64) ∧
    (Launch (pending (demo (ramp 65) 0x400) [.issue 0x00000002, .tick, .tick, .reset]) ∧
      decode 0x00000002 = .instr .decrypt ∧ LegalRounds (commandRounds .decrypt) ∧ 1 ≤ (65 + 63) / 64) ∧
    (Launch (pending (demo (ramp 65) 0x400) [.issue 0x00001401, .tick, .tick, .tick, .reset]) ∧ 2 ≤ (65 + 63) / 64 ∧
      [Event.issue 0x00001401, .tick, .tick, .tick, .reset] =
        .issue 0x00001401 :: (List.replicate (2 + 1) .tick ++ [.reset])) := by decide +kernel

/-- CommandsIgnoreInternalRegisters: two idle cores that differ in an internal register, where a command goes on. -/
theorem witness_internal :
    let u : State := { demo four 0x400 with engine := { Engine.reset with rc := 7 } }
    isIdle (demo four 0x400) = true ∧ isIdle u = true ∧ (demo four 0x400).engine ≠ u.engine ∧
      (demo four 0x400).regs = u.regs ∧ (demo four 0x400).mem = u.mem ∧
      (demo four 0x400).addrBits = u.addrBits ∧ (demo four 0x400).regions = u.regions ∧
      (nextState (exec .decrypt (demo four 0x400))).isSome = true := by decide +kernel

/-- CommandsIgnoreInternalRegisters: two idle cores where the same command is stuck, and where it is refused. -/
theorem witness_internal_stops :
    stuckAt (exec .decrypt { demo four 0x400 with regions := [] }) = some 0x100 ∧
    refusalOf (exec .decrypt (demo four 0x201)) = some .bufferOverlap := by decide +kernel

/-- OutputDependsOnlyOnTheReadBuffers: two canonical memories that differ in a byte outside the buffers. -/
theorem witness_local :
    let s := demo four 0x400
    let u : State := { s with mem := writeByte s.mem 0x300 0x55 }
    s.mem ≠ u.mem ∧ Memory.wf s.mem = true ∧ Memory.wf u.mem = true ∧
      (∀ a < 0x300, readByte s.mem a = readByte u.mem a) ∧
      (nextState (exec .decrypt s)).map (fun t => t.regs.status) = some .ok := by decide +kernel

/-- BytesWrittenAreReadBack: the last bytes of the address space; and a run whose last byte is not admitted. -/
theorem witness_memory :
    Memory.wf (demo four 0x400).mem = true ∧ 0xFFFFFFFFFFFFFFFC + four.length ≤ 2 ^ (demo four 0x400).addrBits ∧
    (∀ m < four.length, admits [⟨0, 2 ^ 64⟩] (0xFFFFFFFFFFFFFFFC + m) = true) ∧
    (3 < four.length ∧ admits [⟨0, 0x403⟩] (0x400 + 3) = false) := by decide +kernel

/-- RacesWithARunningCommandAreRefused, AccessesOfOtherAgentsActOnOneByte: the last key byte, the byte after it, and the last
output byte, while a command runs; an idle core; and the first address that does not exist. -/
theorem witness_race :
    let g := (running four 0).regs
    isIdle (demo four 0x400) = true ∧ 0x403 < 2 ^ (running four 0).addrBits ∧ 2 ^ (running four 0).addrBits ≤ 2 ^ 64 ∧
      (running four 0).comb.phase ≠ .idle ∧ Memory.wf (running four 0).mem = true ∧
      inside (keyBuffer g) 0x11F = true ∧
      (inside (keyBuffer g) 0x120 || inside (nonceBuffer g) 0x120 || inside (inBuffer g) 0x120 ||
        inside (outBuffer g) 0x120) = false ∧
      inside (outBuffer g) 0x403 = true := by decide +kernel

/-- HostAccessesActOnOneRegister: a read-only register at each end, and the largest value of the first and last operand
register. -/
theorem witness_host :
    isIdle (demo four 0x400) = true ∧ regNumber .status = 1 ∧ 11 ≤ regNumber .ctrOut ∧
    (2 ≤ regNumber .outAddr ∧ regNumber .ctrIn ≤ 10 ∧ 2 ^ 64 - 1 < 2 ^ regWidth 64 .outAddr ∧
      2 ^ 64 - 1 < 2 ^ regWidth 64 .ctrIn) := by decide +kernel

/-- StatementsExpandToTheirCommand, MovCopiesTheReturnedCounter: the operands of program P4 and the largest numbers, a list of
pending actions for each form of the counter, and an idle core with a MOV. -/
theorem witness_statement :
    isIdle State.reset = true ∧
    (pending State.reset (expand (.decrypt ⟨0x400, 4⟩ ⟨0x200, 4⟩ ⟨0x140, 8⟩ ⟨0x100, 32⟩ (some .ctrOut)))).events =
      [.wr .outAddr 0x400, .wr .outLen 4, .wr .inAddr 0x200, .wr .inLen 4, .wr .nonceAddr 0x140, .wr .nonceLen 8,
       .wr .keyAddr 0x100, .wr .keyLen 32, .mov, .wr .cmd 2] ∧
    (0x400 < 2 ^ 64 ∧ 4 < 2 ^ 64 ∧ 2 ^ 64 - 1 < 2 ^ 64 ∧ 255 < 256) ∧
    (pending (demo four 0x400) [.mov]).events = .mov :: [] ∧ isIdle (pending (demo four 0x400) [.mov]) = true := by
  decide +kernel

end Sys2Proof.Tests
end

section
/-! PROOFS. The host-visible registers and reset (spec/10_state.md R38, R40, R45, spec/70_reset_and_hazards.md R170). -/

namespace Sys2Proof.Machine

/-! ### What a register reads as -/

@[simp] theorem readReg_keySize (g : HostRegs) : readReg g .keySize = 32 := rfl
@[simp] theorem readReg_nonceSize (g : HostRegs) : readReg g .nonceSize = 8 := rfl
@[simp] theorem readReg_blockSize (g : HostRegs) : readReg g .blockSize = 64 := rfl

/-- Bits 31:2 of STATUS are 0, so it reads as the number of its two-bit code (R38). -/
@[simp] theorem readReg_status (g : HostRegs) : readReg g .status = (statusNumber g.status).toNat :=
  BitVec.toNat_setWidth_of_le (by decide)

/-- The reset registers read as 0, all but the three hard-wired constants (R40, R45). -/
theorem readReg_hostRegs_reset (r : HostReg) :
    readReg HostRegs.reset r =
      if r = .keySize then 32 else if r = .nonceSize then 8 else if r = .blockSize then 64 else 0 := by
  cases r <;> rfl

/-! ### Reset -/

/-- A pending reset takes place in one step, whatever the core is doing (R170). -/
theorem step_of_reset {s : State} {es : List Event} (h : s.events = .reset :: es) :
    step s = .next (resetCore { s with events := es }) :=
  step_of_event h

/-- A reset leaves the core idle with a clean scratch buffer (R45). -/
theorem resetCore_ready (s : State) : Ready (resetCore s) := ⟨isIdle_iff.2 rfl, rfl⟩

/-- So does the state at reset (R45). -/
theorem reset_ready : Ready State.reset := ⟨isIdle_iff.2 rfl, rfl⟩

/-! ### The obligations -/

/-- Settles O57: the constants have no field to depend on, and STATUS is read through its code's number. -/
theorem constantsAndStatusReadAsStated : Obligations.ConstantsAndStatusReadAsStated := by
  intro g
  refine ⟨readReg_keySize g, readReg_nonceSize g, readReg_blockSize g, ?_⟩
  rw [readReg_status]
  cases g.status <;> rfl

/-- Settles O48: a reset event acts without looking at PHASE, and both it and `State.reset` leave the registers of R45. -/
theorem resetLeavesTheStatedValues : Obligations.ResetLeavesTheStatedValues := by
  refine ⟨fun s es h => ?_, reset_ready, readReg_hostRegs_reset⟩
  exact ⟨resetCore { s with events := es }, step_of_reset h, resetCore_ready _, rfl, rfl, rfl, rfl,
    readReg_hostRegs_reset⟩

end Sys2Proof.Machine
end

section
/-! PROOFS. The command word and the assembler's short forms (spec/30_encoding.md R71, R75, R80, R81). -/

namespace Sys2Proof.Machine

/-! ### The fields of a command word as numbers (R71) -/

@[simp] theorem toNat_fieldRsv1 (w : Word) : (fieldRsv1 w).toNat = w.toNat / 2 ^ 16 := by
  have hw : w.toNat < 2 ^ 32 := w.isLt
  have hfit : w.toNat / 2 ^ 16 < 2 ^ 16 := by omega
  simp only [fieldRsv1, BitVec.extractLsb'_toNat, Nat.shiftRight_eq_div_pow, Nat.mod_eq_of_lt hfit]

@[simp] theorem toNat_fieldRounds (w : Word) : (fieldRounds w).toNat = w.toNat / 2 ^ 8 % 2 ^ 8 := by
  simp only [fieldRounds, BitVec.extractLsb'_toNat, Nat.shiftRight_eq_div_pow]

@[simp] theorem toNat_fieldRsv0 (w : Word) : (fieldRsv0 w).toNat = w.toNat / 2 ^ 4 % 2 ^ 4 := by
  simp only [fieldRsv0, BitVec.extractLsb'_toNat, Nat.shiftRight_eq_div_pow]

@[simp] theorem toNat_fieldOp (w : Word) : (fieldOp w).toNat = w.toNat % 2 ^ 4 := by
  simp only [fieldOp, BitVec.extractLsb'_toNat, Nat.shiftRight_zero]

theorem fieldRsv1_eq_iff {w : Word} {v : BitVec 16} : fieldRsv1 w = v ↔ w.toNat / 2 ^ 16 = v.toNat := by
  rw [← BitVec.toNat_inj, toNat_fieldRsv1]

theorem fieldRounds_eq_iff {w : Word} {v : BitVec 8} : fieldRounds w = v ↔ w.toNat / 2 ^ 8 % 2 ^ 8 = v.toNat := by
  rw [← BitVec.toNat_inj, toNat_fieldRounds]

theorem fieldRsv0_eq_iff {w : Word} {v : BitVec 4} : fieldRsv0 w = v ↔ w.toNat / 2 ^ 4 % 2 ^ 4 = v.toNat := by
  rw [← BitVec.toNat_inj, toNat_fieldRsv0]

theorem fieldOp_eq_iff {w : Word} {v : BitVec 4} : fieldOp w = v ↔ w.toNat % 2 ^ 4 = v.toNat := by
  rw [← BitVec.toNat_inj, toNat_fieldOp]

/-! ### The branches of `Decode` (R75) -/

/-- `Decode` rejects a word for its reserved bits before it looks at OP. -/
theorem decode_of_reserved {w : Word} (h : fieldRsv1 w ≠ 0 ∨ fieldRsv0 w ≠ 0) :
    decode w = .illegal .reservedBits := if_pos h

section
variable {w : Word} (hrsv : ¬ (fieldRsv1 w ≠ 0 ∨ fieldRsv0 w ≠ 0))
include hrsv

theorem decode_of_op_one (hop : fieldOp w = 0x1) : decode w = .instr (.encrypt (fieldRounds w).toNat) := by
  rw [decode, if_neg hrsv, if_pos hop]

theorem decode_of_op_two (hop : fieldOp w = 0x2) (hr : fieldRounds w = 0) : decode w = .instr .decrypt := by
  rw [decode, if_neg hrsv, if_neg (by rw [hop]; decide), if_pos hop, if_pos hr]

theorem decode_of_op_two_rounds (hop : fieldOp w = 0x2) (hr : fieldRounds w ≠ 0) :
    decode w = .illegal (.decryptRounds (fieldRounds w)) := by
  rw [decode, if_neg hrsv, if_neg (by rw [hop]; decide), if_pos hop, if_neg hr]

theorem decode_of_undefined_op (hop1 : fieldOp w ≠ 0x1) (hop2 : fieldOp w ≠ 0x2) :
    decode w = .illegal (.undefinedOp (fieldOp w)) := by
  rw [decode, if_neg hrsv, if_neg hop1, if_neg hop2]

end

/-! ### Short forms of statements (R80) -/

/-- An omitted counter stands for the number 0 (R80). -/
@[simp] theorem ctrActions_none : ctrActions none = ctrActions (some (.number 0)) := rfl

/-- An omitted round count stands for 20 (R80). -/
@[simp] theorem encryptWord_none : encryptWord none = encryptWord (some 20) := rfl

/-- Omitting the counter of a command statement is writing 0 for it: its action is the only one the counter decides. -/
theorem commandActions_omitted_ctr (out inp nonce key : Buffer) (word : Nat) :
    commandActions out inp nonce key none word = commandActions out inp nonce key (some (.number 0)) word := by
  simp only [commandActions, ctrActions_none]

/-! ### The obligations -/

/-- Settles O19: each premise about numbers says whether a field has the value that one branch of `Decode` asks for. -/
theorem decodeFollowsTheFields : Obligations.DecodeFollowsTheFields := by
  intro w
  refine ⟨fun h => ?reserved, fun h1 h0 hop => ?encrypt, fun h1 h0 hop hr => ?decrypt,
    fun h1 h0 hop hr => ?decryptRounds, fun h1 h0 hop1 hop2 => ?undefinedOp⟩
  case reserved => exact ⟨_, decode_of_reserved (h.imp fieldRsv1_eq_iff.not.2 fieldRsv0_eq_iff.not.2)⟩
  all_goals have hrsv : ¬ (fieldRsv1 w ≠ 0 ∨ fieldRsv0 w ≠ 0) :=
    not_or.2 ⟨not_not.2 (fieldRsv1_eq_iff.2 h1), not_not.2 (fieldRsv0_eq_iff.2 h0)⟩
  case encrypt => rw [decode_of_op_one hrsv (fieldOp_eq_iff.2 hop), toNat_fieldRounds]
  case decrypt => exact decode_of_op_two hrsv (fieldOp_eq_iff.2 hop) (fieldRounds_eq_iff.2 hr)
  case decryptRounds =>
    exact ⟨_, decode_of_op_two_rounds hrsv (fieldOp_eq_iff.2 hop) (fieldRounds_eq_iff.not.2 hr)⟩
  case undefinedOp =>
    exact ⟨_, decode_of_undefined_op hrsv (fieldOp_eq_iff.not.2 hop1) (fieldOp_eq_iff.not.2 hop2)⟩

/-- Settles O59: a pseudo-command is an ENCRYPT with its round count by definition, and each default is the lemma above on
the omitted operand. -/
theorem pseudoCommandsAndDefaultsExpand : Obligations.PseudoCommandsAndDefaultsExpand := by
  refine ⟨fun out inp nonce key ctr => ⟨rfl, rfl, rfl, ?_, fun rounds => ?_, ?_⟩, rfl, rfl, rfl⟩
  · simp only [expand, encryptWord_none]
  · exact commandActions_omitted_ctr out inp nonce key (encryptWord rounds)
  · exact commandActions_omitted_ctr out inp nonce key 0x00000002

end Sys2Proof.Machine
end

section
/-! PROOFS. The 32-bit word operations (spec/40_word_ops.md R90 to R94). -/

namespace Sys2Proof.Machine

/-! ### ADD32 and XOR32 (R90, R91) -/

@[simp] theorem toNat_add32 (a b : Word) : (add32 a b).toNat = (a.toNat + b.toNat) % 2 ^ 32 :=
  BitVec.toNat_add a b

@[simp] theorem getLsbD_xor32 (a b : Word) (i : Nat) :
    (xor32 a b).getLsbD i = (a.getLsbD i ^^ b.getLsbD i) :=
  BitVec.getLsbD_xor

/-- Exclusive or with the same word twice gives back the first operand (R91). -/
@[simp] theorem xor32_xor32_cancel (a b : Word) : xor32 (xor32 a b) b = a := by
  simp only [xor32, BitVec.xor_assoc, BitVec.xor_self, BitVec.xor_zero]

/-! ### ROTL32 (R92) -/

/-- On its domain ROTL32 is the library's rotation, so the library's facts about rotations speak of it. -/
theorem rotl32_eq_rotateLeft (v : Word) (n : Fin 32) : rotl32 v n = v.rotateLeft n.val :=
  (BitVec.rotateLeft_eq_rotateLeftAux_of_lt n.isLt).symm

/-- The formula of R92. Its two summands have no bit in common: the first is a multiple of `2 ^ n`, the second is below
`2 ^ n`. So the model's OR is their sum. -/
theorem toNat_rotl32 (v : Word) (n : Fin 32) :
    (rotl32 v n).toNat = v.toNat * 2 ^ n.val % 2 ^ 32 + v.toNat / 2 ^ (32 - n.val) := by
  have hsplit : 2 ^ 32 = 2 ^ (32 - n.val) * 2 ^ n.val := by rw [← Nat.pow_add, Nat.sub_add_cancel n.isLt.le]
  have hhigh : v.toNat * 2 ^ n.val % 2 ^ 32 = 2 ^ n.val * (v.toNat % 2 ^ (32 - n.val)) := by
    rw [hsplit, Nat.mul_mod_mul_right, Nat.mul_comm]
  have hlow : v.toNat / 2 ^ (32 - n.val) < 2 ^ n.val := Nat.div_lt_of_lt_mul (hsplit ▸ v.isLt)
  calc (rotl32 v n).toNat = v.toNat * 2 ^ n.val % 2 ^ 32 ||| v.toNat / 2 ^ (32 - n.val) := by
        rw [rotl32_eq_rotateLeft, BitVec.toNat_rotateLeft, Nat.mod_eq_of_lt n.isLt, Nat.shiftLeft_eq,
          Nat.shiftRight_eq_div_pow]
    _ = v.toNat * 2 ^ n.val % 2 ^ 32 + v.toNat / 2 ^ (32 - n.val) := by
        rw [hhigh, Nat.two_pow_add_eq_or_of_lt hlow]

/-- Amount 0 is the identity (R92): its formula shifts nothing out and nothing in. -/
@[simp] theorem rotl32_zero (v : Word) : rotl32 v 0 = v := by
  have hv : v.toNat < 2 ^ 32 := v.isLt
  apply BitVec.eq_of_toNat_eq
  rw [toNat_rotl32, Fin.val_zero]
  omega

/-- Bit `i` moves to position `(i + n) mod 32` (R92): up by `n` where that stays in the word, else round to the low end. -/
theorem getLsbD_rotl32 (v : Word) (n : Fin 32) {i : Nat} (hi : i < 32) :
    (rotl32 v n).getLsbD ((i + n.val) % 32) = v.getLsbD i := by
  have hn : n.val % 32 = n.val := Nat.mod_eq_of_lt n.isLt
  rw [rotl32_eq_rotateLeft, BitVec.getLsbD_rotateLeft, hn]
  by_cases hstay : i + n.val < 32
  · simp [Nat.mod_eq_of_lt hstay, hstay]
  · have hpos : (i + n.val) % 32 = i + n.val - 32 := by omega
    have hlt : i + n.val - 32 < n.val := by omega
    have hback : 32 - n.val + (i + n.val - 32) = i := by omega
    simp [hpos, hlt, hback]

/-! ### LE32 and LE32INV (R93, R94) -/

/-- The value of an append: the low part fits below the high part, so their OR is a sum. -/
theorem toNat_append_eq_add {m n : Nat} (hi : BitVec m) (lo : BitVec n) :
    (hi ++ lo).toNat = hi.toNat * 2 ^ n + lo.toNat := by
  rw [BitVec.toNat_append, ← Nat.shiftLeft_add_eq_or_of_lt lo.isLt, Nat.shiftLeft_eq]

/-- The formula of R93: every append puts the next byte below the ones so far. -/
theorem toNat_le32 (b0 b1 b2 b3 : Byte) :
    (le32 b0 b1 b2 b3).toNat = b0.toNat + 2 ^ 8 * b1.toNat + 2 ^ 16 * b2.toNat + 2 ^ 24 * b3.toNat := by
  simp only [le32, toNat_append_eq_add]
  omega

/-- Inside the byte sequence LE32at reads its bytes, no padding (R93). -/
theorem le32At_eq_le32 (bs : List Byte) (i : Nat) (h : 4 * i + 3 < bs.length) :
    le32At bs i = le32 bs[4 * i] bs[4 * i + 1] bs[4 * i + 2] bs[4 * i + 3] := by
  simp only [le32At, List.getD_eq_getElem _ _ h,
    List.getD_eq_getElem bs 0 (show 4 * i < bs.length by omega),
    List.getD_eq_getElem bs 0 (show 4 * i + 1 < bs.length by omega),
    List.getD_eq_getElem bs 0 (show 4 * i + 2 < bs.length by omega)]

/-- Byte `i` of LE32INV is bits `8 * i + 7 : 8 * i` of the word (R94). -/
theorem getElem_le32Inv (w : Word) (i : Nat) (h : i < 4) : (le32Inv w)[i] = w.extractLsb' (8 * i) 8 := by
  match i, h with
  | 0, _ | 1, _ | 2, _ | 3, _ => rfl

@[simp] theorem toNat_getElem_le32Inv (w : Word) (i : Nat) (h : i < 4) :
    (le32Inv w)[i].toNat = w.toNat / 2 ^ (8 * i) % 2 ^ 8 := by
  rw [getElem_le32Inv, BitVec.extractLsb'_toNat, Nat.shiftRight_eq_div_pow]

/-- A word is put together again from its bytes: its four base-256 digits (R94). -/
@[simp] theorem le32_le32Inv (w : Word) : le32 (le32Inv w)[0] (le32Inv w)[1] (le32Inv w)[2] (le32Inv w)[3] = w := by
  have hw : w.toNat < 2 ^ 32 := w.isLt
  apply BitVec.eq_of_toNat_eq
  simp only [toNat_le32, toNat_getElem_le32Inv]
  omega

/-- The bytes of a word put together from four bytes are those bytes (R94). -/
@[simp] theorem le32Inv_le32 (b0 b1 b2 b3 : Byte) : le32Inv (le32 b0 b1 b2 b3) = #v[b0, b1, b2, b3] := by
  have h0 : b0.toNat < 2 ^ 8 := b0.isLt
  have h1 : b1.toNat < 2 ^ 8 := b1.isLt
  have h2 : b2.toNat < 2 ^ 8 := b2.isLt
  have h3 : b3.toNat < 2 ^ 8 := b3.isLt
  ext i hi : 1
  apply BitVec.eq_of_toNat_eq
  rw [toNat_getElem_le32Inv, toNat_le32]
  match i, hi with
  | 0, _ => change _ = b0.toNat; omega
  | 1, _ => change _ = b1.toNat; omega
  | 2, _ => change _ = b2.toNat; omega
  | 3, _ => change _ = b3.toNat; omega

/-! ### The obligations -/

/-- Settles O3: the OR of the two shifts is a sum because they share no bit, and each bit lands where the library's rotation
puts it. -/
theorem rotl32IsCircularLeftRotation : Obligations.Rotl32IsCircularLeftRotation := by
  intro v n
  refine ⟨fun hn => ?_, fun _ => toNat_rotl32 v n, fun i hi => getLsbD_rotl32 v n hi⟩
  rw [Fin.ext hn (b := 0), rotl32_zero]

/-- Settles O1: the addition of machine words wraps at `2 ^ 32`. -/
theorem add32IsAdditionModuloTwoToThe32 : Obligations.Add32IsAdditionModuloTwoToThe32 := toNat_add32

/-- Settles O2: the exclusive or of two bits is set exactly when they differ, and a word cancels itself. -/
theorem xor32ActsOnEachBit : Obligations.Xor32ActsOnEachBit := by
  intro a b
  refine ⟨fun i _ => ?_, xor32_xor32_cancel a b⟩
  rw [getLsbD_xor32, bne_iff_ne]

/-- Settles O4: both conversions are their base-256 formulas, and base-256 digits determine a word and are determined by it. -/
theorem littleEndianConversionsAreInverse : Obligations.LittleEndianConversionsAreInverse :=
  ⟨toNat_le32, le32At_eq_le32, toNat_getElem_le32Inv, le32_le32Inv, le32Inv_le32⟩

end Sys2Proof.Machine
end

section
/-! PROOFS. The round-mixing network (spec/41_round_network.md R100 to R105). -/

namespace Sys2Proof.Machine

/-! ### The quarter-round (R100) -/

/-- The four statements of R100, written with the library's rotation. -/
theorem quarterRound_statements (a b c d : Word) : ∃ a' b' c' d' : Word,
    quarterRound ⟨a, b, c, d⟩ = ⟨a', b', c', d'⟩ ∧
    b' = b ^^^ (a + d).rotateLeft 7 ∧ c' = c ^^^ (b' + a).rotateLeft 9 ∧
    d' = d ^^^ (c' + b').rotateLeft 13 ∧ a' = a ^^^ (d' + c').rotateLeft 18 := by
  refine ⟨_, _, _, _, rfl, ?_, ?_, ?_, ?_⟩ <;> exact congrArg _ (rotl32_eq_rotateLeft _ _)

/-- The statements of QR undone from the last to the first: each leaves the two words it adds as they are, so the same
exclusive or takes its effect back. -/
def quarterRoundInv (q : Quad) : Quad :=
  let a := xor32 q.a (rotl32 (add32 q.d q.c) 18)
  let d := xor32 q.d (rotl32 (add32 q.c q.b) 13)
  let c := xor32 q.c (rotl32 (add32 q.b a) 9)
  let b := xor32 q.b (rotl32 (add32 a d) 7)
  ⟨a, b, c, d⟩

theorem quarterRoundInv_quarterRound : Function.LeftInverse quarterRoundInv quarterRound := by
  intro q
  simp only [quarterRound, quarterRoundInv, xor32_xor32_cancel]

theorem quarterRound_quarterRoundInv : Function.RightInverse quarterRoundInv quarterRound := by
  intro q
  simp only [quarterRound, quarterRoundInv, xor32_xor32_cancel]

theorem quarterRound_bijective : Function.Bijective quarterRound :=
  ⟨quarterRoundInv_quarterRound.injective, quarterRound_quarterRoundInv.surjective⟩

/-! ### A quarter-round on the registers of a group (R100, R101) -/

/-- The registers a group names, in the order of the operands of QR. -/
def Group.regs (g : Group) : List (Fin 16) := [g.p, g.q, g.r, g.s]

/-- The words in the registers of a group. -/
def readGroup (x : Words 16) (g : Group) : Quad := ⟨x[g.p], x[g.q], x[g.r], x[g.s]⟩

/-- A group names four different registers exactly when no two of its indices are equal. -/
theorem Group.nodup_regs_iff {g : Group} :
    g.regs.Nodup ↔ (g.p ≠ g.q ∧ g.p ≠ g.r ∧ g.p ≠ g.s) ∧ (g.q ≠ g.r ∧ g.q ≠ g.s) ∧ g.r ≠ g.s := by
  simp [Group.regs]

theorem Group.mem_regs_iff {g : Group} {i : Fin 16} : i ∈ g.regs ↔ i = g.p ∨ i = g.q ∨ i = g.r ∨ i = g.s := by
  simp [Group.regs]

/-- What a register holds after a write to a register. -/
theorem getElem_set_fin (x : Words 16) (i j : Fin 16) (w : Word) : (x.set i w)[j] = if i = j then w else x[j] := by
  simp only [Fin.getElem_fin, Vector.getElem_set, Fin.ext_iff]

/-- QR writes its results to the registers of its group: no later write of the four hits an earlier one. -/
theorem readGroup_applyGroup {g : Group} (hg : g.regs.Nodup) (x : Words 16) :
    readGroup (applyGroup x g) g = quarterRound (readGroup x g) := by
  obtain ⟨⟨hpq, hpr, hps⟩, ⟨hqr, hqs⟩, hrs⟩ := Group.nodup_regs_iff.1 hg
  simp only [readGroup, applyGroup, getElem_set_fin, hpq.symm, hpr.symm, hps.symm, hqr.symm, hqs.symm, hrs.symm,
    if_true, if_false]

/-- QR writes no register outside its group. -/
theorem getElem_applyGroup_of_notMem {g : Group} {i : Fin 16} (hi : i ∉ g.regs) (x : Words 16) :
    (applyGroup x g)[i] = x[i] := by
  obtain ⟨hp, hq, hr, hs⟩ : i ≠ g.p ∧ i ≠ g.q ∧ i ≠ g.r ∧ i ≠ g.s := by
    simpa only [Group.mem_regs_iff, not_or] using hi
  simp only [applyGroup, getElem_set_fin, hp.symm, hq.symm, hr.symm, hs.symm, if_false]

/-- Groups without a common register do not disturb each other. -/
theorem readGroup_applyGroup_of_disjoint {g h : Group} (hd : g.regs.Disjoint h.regs) (x : Words 16) :
    readGroup (applyGroup x h) g = readGroup x g := by
  have hkeep : ∀ i ∈ g.regs, (applyGroup x h)[i] = x[i] := fun i hi => getElem_applyGroup_of_notMem (hd hi) x
  simp only [Group.regs, List.forall_mem_cons] at hkeep
  obtain ⟨hp, hq, hr, hs, -⟩ := hkeep
  simp only [readGroup, hp, hq, hr, hs]

/-! ### A round: quarter-rounds on groups that share no register (R102, R103) -/

/-- Quarter-rounds on other groups leave a group's words as they are. -/
theorem readGroup_foldl_of_disjoint {g : Group} {gs : List Group} (hd : g.regs.Disjoint (gs.flatMap Group.regs))
    (x : Words 16) : readGroup (gs.foldl applyGroup x) g = readGroup x g := by
  induction gs generalizing x with
  | nil => rfl
  | cons h gs ih =>
    rw [List.flatMap_cons, List.disjoint_append_right] at hd
    rw [List.foldl_cons, ih hd.2, readGroup_applyGroup_of_disjoint hd.1]

/-- Where no register is named twice, each group is mixed once: the groups before it and after it do not touch it. -/
theorem readGroup_foldl_of_mem {g : Group} {gs : List Group} (hgs : (gs.flatMap Group.regs).Nodup) (hg : g ∈ gs)
    (x : Words 16) : readGroup (gs.foldl applyGroup x) g = quarterRound (readGroup x g) := by
  induction gs generalizing x with
  | nil => cases hg
  | cons h gs ih =>
    rw [List.flatMap_cons, List.nodup_append'] at hgs
    obtain ⟨hnodup, hrest, hd⟩ := hgs
    rw [List.foldl_cons]
    rcases List.mem_cons.1 hg with rfl | hmem
    · rw [readGroup_foldl_of_disjoint hd, readGroup_applyGroup hnodup]
    · have hgh : g.regs.Disjoint h.regs := fun i hi hih => hd hih (List.mem_flatMap.2 ⟨g, hmem, hi⟩)
      rw [ih hrest hmem, readGroup_applyGroup_of_disjoint hgh]

theorem columnGroups_nodup : (columnGroups.flatMap Group.regs).Nodup := by decide

theorem rowGroups_nodup : (rowGroups.flatMap Group.regs).Nodup := by decide

/-- Group `C_c` by the formula of R101. -/
def columnGroup (c : Fin 4) : Group :=
  ⟨⟨5 * c.val % 16, by omega⟩, ⟨(5 * c.val + 4) % 16, by omega⟩, ⟨(5 * c.val + 8) % 16, by omega⟩,
    ⟨(5 * c.val + 12) % 16, by omega⟩⟩

/-- Group `W_r` by the formula of R101. -/
def rowGroup (r : Fin 4) : Group :=
  ⟨⟨4 * r.val + r.val, by omega⟩, ⟨4 * r.val + (r.val + 1) % 4, by omega⟩,
    ⟨4 * r.val + (r.val + 2) % 4, by omega⟩, ⟨4 * r.val + (r.val + 3) % 4, by omega⟩⟩

theorem columnGroups_eq_ofFn : columnGroups = List.ofFn columnGroup := by decide

theorem rowGroups_eq_ofFn : rowGroups = List.ofFn rowGroup := by decide

theorem columnGroup_mem (c : Fin 4) : columnGroup c ∈ columnGroups :=
  columnGroups_eq_ofFn ▸ List.mem_ofFn.2 ⟨c, rfl⟩

theorem rowGroup_mem (r : Fin 4) : rowGroup r ∈ rowGroups :=
  rowGroups_eq_ofFn ▸ List.mem_ofFn.2 ⟨r, rfl⟩

/-! ### The round loop (R105) -/

theorem moreDoubleRounds_iff {dr : BitVec 4} {rc : BitVec 5} :
    moreDoubleRounds dr rc = true ↔ dr.toNat < rc.toNat / 2 := by
  unfold moreDoubleRounds
  exact decide_eq_true_iff

/-- The loop ends at its count, however many turns its bound still allows. -/
theorem roundLoop_of_done {e : Engine} (h : ¬ e.dr.toNat < e.rc.toNat / 2) (fuel : Nat) : roundLoop fuel e = e := by
  cases fuel with
  | zero => rfl
  | succ fuel => rw [roundLoop, if_neg (mt moreDoubleRounds_iff.1 h)]

/-- One turn of the loop. -/
theorem roundLoop_succ_of_more {e : Engine} (h : e.dr.toNat < e.rc.toNat / 2) (fuel : Nat) :
    roundLoop (fuel + 1) e = roundLoop fuel { e with x := doubleRound e.x, dr := e.dr + 1 } := by
  rw [roundLoop, if_pos (moreDoubleRounds_iff.2 h)]

/-- The index of double-rounds does not wrap below its count: `rc` has 5 bits, so the count is at most 15. -/
theorem toNat_dr_add_one {dr : BitVec 4} {rc : BitVec 5} (h : dr.toNat < rc.toNat / 2) :
    (dr + 1).toNat = dr.toNat + 1 := by
  have hrc : rc.toNat < 2 ^ 5 := rc.isLt
  bv_omega

/-- With `n` double-rounds still to go and a bound of at least `n` turns, the loop makes exactly these. -/
theorem roundLoop_eq_iterate (n slack : Nat) (e : Engine) (hn : e.dr.toNat + n = e.rc.toNat / 2) :
    roundLoop (n + slack) e =
      { e with x := doubleRound^[n] e.x, dr := BitVec.ofNat 4 (e.rc.toNat / 2) } := by
  induction n generalizing e with
  | zero =>
    have hdr : BitVec.ofNat 4 (e.rc.toNat / 2) = e.dr := by
      rw [← hn, Nat.add_zero, BitVec.ofNat_toNat, BitVec.setWidth_eq]
    rw [roundLoop_of_done (by omega), hdr, Function.iterate_zero_apply]
  | succ n ih =>
    have hmore : e.dr.toNat < e.rc.toNat / 2 := by omega
    rw [Nat.succ_add, roundLoop_succ_of_more hmore, ih]
    · rfl
    · change (e.dr + 1).toNat + n = e.rc.toNat / 2
      rw [toNat_dr_add_one hmore]
      omega

/-- ROUNDS is as many double-rounds as half its round count: the bound of 16 turns is enough for every `rc`. -/
theorem rounds_eq_iterate (e : Engine) :
    rounds e = { e with
      x := doubleRound^[e.rc.toNat / 2] e.x
      dr := BitVec.ofNat 4 (e.rc.toNat / 2) } := by
  have hrc : e.rc.toNat < 2 ^ 5 := e.rc.isLt
  have hloop := roundLoop_eq_iterate (e.rc.toNat / 2) (16 - e.rc.toNat / 2) { e with dr := 0 } (Nat.zero_add _)
  rwa [Nat.add_sub_of_le (by omega)] at hloop

/-! ### The obligations -/

/-- Settles O6: QR is undone statement by statement, and on four different registers no write hits another. -/
theorem quarterRoundIsSequentialAndBijective : Obligations.QuarterRoundIsSequentialAndBijective := by
  refine ⟨quarterRound_statements, quarterRound_bijective, fun x g hpq hpr hps hqr hqs hrs => ⟨?_, ?_⟩⟩
  · exact readGroup_applyGroup (Group.nodup_regs_iff.2 ⟨⟨hpq, hpr, hps⟩, ⟨hqr, hqs⟩, hrs⟩) x
  · intro i hp hq hr hs
    exact getElem_applyGroup_of_notMem (by simp only [Group.mem_regs_iff, hp, hq, hr, hs, or_self, not_false_eq_true]) x

/-- Settles O7: the four groups of a round share no register, so each of them is mixed once and not disturbed. -/
theorem roundsApplyQuarterRoundsToTheirGroups : Obligations.RoundsApplyQuarterRoundsToTheirGroups :=
  ⟨fun x c => readGroup_foldl_of_mem columnGroups_nodup (columnGroup_mem c) x,
    fun x r => readGroup_foldl_of_mem rowGroups_nodup (rowGroup_mem r) x⟩

/-- Settles O10: by induction on the double-rounds still to go. -/
theorem roundLoopAppliesHalfTheRounds : Obligations.RoundLoopAppliesHalfTheRounds := rounds_eq_iterate

end Sys2Proof.Machine
end

section
/-! PROOFS. The byte order of SERIALIZE and the counter of CTRINC (spec/42_keystream_engine.md R114, R115). -/

namespace Sys2Proof.Machine

/-! ### SERIALIZE (R114) -/

/-- Word `i` stands at bytes `4 * i` to `4 * i + 3`, as LE32INV gives its bytes. -/
theorem getElem_serializeWords_word (x : Words 16) (i c : Nat) (hi : i < 16) (hc : c < 4) :
    (serializeWords x)[4 * i + c] = (le32Inv x[i])[c] := by
  have hword : (4 * i + c) / 4 = i := by omega
  have hbyte : (4 * i + c) % 4 = c := by omega
  simp only [getElem_serializeWords, hword, hbyte]

/-! ### CTRINC (R115) -/

theorem lowWordWrapped_iff {t0 : Word} : lowWordWrapped t0 = true ↔ t0 = 0 := by
  unfold lowWordWrapped
  exact beq_iff_eq

/-- While the low word does not wrap, the high word is kept. -/
theorem nextCounter_of_no_wrap {t : Words 2} (h : t[0] + 1 ≠ 0) : nextCounter t = #v[t[0] + 1, t[1]] :=
  if_neg (mt lowWordWrapped_iff.1 h)

/-- A low word that wraps carries into the high word. -/
theorem nextCounter_of_wrap {t : Words 2} (h : t[0] + 1 = 0) : nextCounter t = #v[t[0] + 1, t[1] + 1] :=
  if_pos (lowWordWrapped_iff.2 h)

@[simp] theorem getElem_nextCounter_zero (t : Words 2) : (nextCounter t)[0] = t[0] + 1 := by
  by_cases h : t[0] + 1 = 0
  · rw [nextCounter_of_wrap h]; rfl
  · rw [nextCounter_of_no_wrap h]; rfl

theorem getElem_nextCounter_one (t : Words 2) :
    (nextCounter t)[1] = if t[0] + 1 = 0 then t[1] + 1 else t[1] := by
  by_cases h : t[0] + 1 = 0
  · rw [nextCounter_of_wrap h, if_pos h]; rfl
  · rw [nextCounter_of_no_wrap h, if_neg h]; rfl

/-- The counter's value: `t[1]` is its high word, `t[0]` its low word. -/
theorem toNat_counterOf (t : Words 2) : (counterOf t).toNat = t[1].toNat * 2 ^ 32 + t[0].toNat :=
  toNat_append_eq_add t[1] t[0]

/-- The two words count as one 64-bit number: the low word is back at 0 exactly when it was `2 ^ 32 - 1`, and then the carry
adds the `2 ^ 32` it lost. -/
@[simp] theorem counterOf_nextCounter (t : Words 2) : counterOf (nextCounter t) = counterOf t + 1 := by
  apply BitVec.eq_of_toNat_eq
  rw [BitVec.toNat_add, toNat_counterOf, toNat_counterOf, getElem_nextCounter_zero, getElem_nextCounter_one]
  generalize t[0] = lo, t[1] = hi
  split
  case isTrue hwrap => bv_omega
  case isFalse hstay => bv_omega

/-! ### The obligations -/

/-- Settles O15: the case split of CTRINC is the carry of the addition on the two words. -/
theorem counterIncrementCarriesAndWraps : Obligations.CounterIncrementCarriesAndWraps := by
  refine fun e => ⟨rfl, getElem_nextCounter_zero e.t, getElem_nextCounter_one e.t, ?_⟩
  rw [ctrInc_t, counterOf_nextCounter]
  exact BitVec.toNat_add (counterOf e.t) 1

/-- Settles O14: byte `4 * i + c` of KS is byte `c` of word `i` by LE32INV. -/
theorem serializeIsLittleEndian : Obligations.SerializeIsLittleEndian := by
  refine fun e => ⟨rfl, fun i c hi hc => ?_⟩
  simp only [serialize_ks, getElem_serializeWords_word e.x i c hi hc, toNat_getElem_le32Inv]

end Sys2Proof.Machine
end

section
/-! PROOFS. The exclusive or of blocks and the last step of a command (spec/43_stream_combiner.md R129, R132, R133). -/

namespace Sys2Proof.Machine

/-! ### XOR64 (R133) -/

/-- Taking a byte out of a word commutes with the exclusive or: no bit of one byte reaches another. -/
theorem getElem_le32Inv_xor32 (v w : Word) (c : Nat) (hc : c < 4) :
    (le32Inv (xor32 v w))[c] = (le32Inv v)[c] ^^^ (le32Inv w)[c] := by
  simp only [getElem_le32Inv, xor32, BitVec.extractLsb'_xor]

/-- Byte `c` of the `m`-th little-endian word of a byte sequence is its byte `4 * m + c`. -/
theorem getElem_le32Inv_le32At {bs : List Byte} {m c : Nat} (hm : 4 * m + 3 < bs.length) (hc : c < 4) :
    (le32Inv (le32At bs m))[c] = bs[4 * m + c] := by
  simp only [le32At_eq_le32 bs m hm, le32Inv_le32]
  match c, hc with
  | 0, _ | 1, _ | 2, _ | 3, _ => rfl

/-- Lane `m` of a block holds the block's bytes `4 * m` to `4 * m + 3`. -/
theorem getElem_le32Inv_lane (a : Block) {m c : Nat} (hm : m < 16) (hc : c < 4) :
    (le32Inv (le32At a.toList m))[c] = a[4 * m + c] := by
  have hlane : 4 * m + 3 < a.toList.length := by
    rw [Vector.length_toList]
    omega
  rw [getElem_le32Inv_le32At hlane hc, Vector.getElem_toList]

@[simp] theorem xor64_zeroBlock (a : Block) : xor64 a zeroBlock = a := by
  ext i hi : 1
  rw [getElem_xor64, zeroBlock, Vector.getElem_replicate]
  exact BitVec.xor_zero

/-- Exclusive or with the same block twice gives back the first operand (R133). -/
@[simp] theorem xor64_xor64_cancel (a b : Block) : xor64 (xor64 a b) b = a := by
  ext i hi : 1
  rw [getElem_xor64, getElem_xor64, BitVec.xor_assoc, BitVec.xor_self, BitVec.xor_zero]

/-! ### FINISH (R129, R132) -/

/-- With OFF at LEN and no event pending, the next step is FINISH (R129). -/
theorem step_of_off_eq_len {s : State} (hev : s.events = []) (hp : s.comb.phase = .run) (hlen : s.comb.len = s.comb.off) :
    step s = .next (finish s) := by
  have hrem : remaining s = 0 := Nat.sub_eq_zero_of_le hlen.le
  rw [step_of_no_event hev, seqStep_finish hp hrem]

/-! ### The obligations -/

/-- Settles O5: both sides of the lane form are the exclusive or of the bytes at `4 * m + c`, because a lane's bytes are the
block's bytes and a byte of an exclusive or is the exclusive or of the bytes. -/
theorem xor64ActsOnEachByteAndEachLane : Obligations.Xor64ActsOnEachByteAndEachLane := by
  refine fun a b => ⟨getElem_xor64 a b, fun m c hm hc => ?_, xor64_zeroBlock a, xor64_xor64_cancel a b⟩
  rw [getElem_xor64, getElem_le32Inv_xor32, getElem_le32Inv_lane a hm hc, getElem_le32Inv_lane b hm hc]

/-- Settles O45: the step is FINISH, which gives PHASE, STATUS and CTR_OUT their values and keeps the rest, the empty list of
events too. -/
theorem finishReturnsCounterAndStatus : Obligations.FinishReturnsCounterAndStatus := by
  intro s hev hp hlen
  refine ⟨finish s, step_of_off_eq_len hev hp hlen, ?phase, ?scratch, finish_mem s, finish_regs s, finish_addrBits s,
    finish_regions s, (finish_events s).trans hev, finish_hostRead s⟩
  case phase => rw [finish_comb, freeCombiner_phase]
  case scratch => rw [finish_comb, freeCombiner_scratch]

end Sys2Proof.Machine
end

section
/-! PROOFS. The host's write of CMD and the error exit of an illegal word (spec/43_stream_combiner.md R126,
spec/60_exceptions.md R153). -/

namespace Sys2Proof.Machine

/-! ### The host's write of CMD (R37, R126) -/

/-- Every command word fits CMD, so the host's write of it is not refused for its width (R41). -/
theorem hostWrite_cmd (w : Word) (s : State) : hostWrite .cmd w.toNat s = commandWrite w s := by
  have hfits : w.toNat < 2 ^ regWidth s.addrBits .cmd := w.isLt
  rw [hostWrite, if_pos rfl, if_pos hfits, BitVec.ofNat_toNat, BitVec.setWidth_eq]

/-- On an idle core a command is taken (R126). -/
theorem whenIdle_of_idle {s : State} (h : isIdle s = true) (command : Host.Outcome State Fault Refusal) :
    whenIdle s command = command := if_pos h

/-- A pending write of CMD on an idle core stores and decodes its word in one step (R126). -/
theorem step_of_cmd_write {s : State} {w : Word} {es : List Event} (hidle : isIdle s = true)
    (hev : s.events = .wr .cmd w.toNat :: es) : step s = commandWrite w { s with events := es } := by
  have hstill : isIdle { s with events := es } = true := hidle
  rw [step_of_event hev, deliver, whenIdle_of_idle hstill, hostWrite_cmd]

/-- ISSUE of an illegal word stores it and raises IllegalCommand (R153). -/
theorem commandWrite_of_illegal {w : Word} {why : IllegalWord} (h : decode w = .illegal why) (s : State) :
    commandWrite w s = .next (raiseCondition .illegalCommand (storeCmd w s)) := by
  rw [commandWrite, h]

/-! ### The obligation -/

/-- Settles O26: the step is the write of CMD, and `raise` after the store of the word touches STATUS alone. -/
theorem illegalWordOnlySetsStatus : Obligations.IllegalWordOnlySetsStatus := by
  intro s w es why hidle hev hdecode
  rw [step_of_cmd_write hidle hev, commandWrite_of_illegal hdecode]
  rfl

end Sys2Proof.Machine
end

section
/-! PROOFS. Decode and encode, and the rows of the opcode table (spec/30_encoding.md R71, R72, R76, R82). -/

namespace Sys2Proof.Machine

/-! ### What a word that decodes to a command looks like (R75) -/

/-- The fields of a word that `Decode` takes for a command. -/
theorem decode_eq_instr {w : Word} {i : Instr} (h : decode w = .instr i) :
    (fieldRsv1 w = 0 ∧ fieldRsv0 w = 0) ∧
      (fieldOp w = 0x1 ∧ i = .encrypt (fieldRounds w).toNat ∨ fieldOp w = 0x2 ∧ fieldRounds w = 0 ∧ i = .decrypt) := by
  by_cases hrsv : fieldRsv1 w ≠ 0 ∨ fieldRsv0 w ≠ 0
  · rw [decode_of_reserved hrsv] at h
    cases h
  refine ⟨by simpa only [not_or, not_not] using hrsv, ?_⟩
  by_cases hop1 : fieldOp w = 0x1
  · rw [decode_of_op_one hrsv hop1] at h
    cases h
    exact .inl ⟨hop1, rfl⟩
  by_cases hop2 : fieldOp w = 0x2
  · by_cases hr : fieldRounds w = 0
    · rw [decode_of_op_two hrsv hop2 hr] at h
      cases h
      exact .inr ⟨hop2, hr, rfl⟩
    · rw [decode_of_op_two_rounds hrsv hop2 hr] at h
      cases h
  · rw [decode_of_undefined_op hrsv hop1 hop2] at h
    cases h

/-! ### Decode and encode (R71, R82) -/

/-- The number of a well-formed ENCRYPT word: its immediate does not run out of the word. -/
theorem toNat_encode_encrypt {rounds : Nat} (h : rounds < 256) : (encode (.encrypt rounds)).toNat = 1 + 256 * rounds := by
  rw [encode, BitVec.toNat_ofNat]
  omega

/-- The word of a well-formed ENCRYPT has OP 1, its immediate in ROUNDS, and no reserved bit. -/
theorem decode_encode_encrypt {rounds : Nat} (h : rounds < 256) :
    decode (encode (.encrypt rounds)) = .instr (.encrypt rounds) := by
  have hw := toNat_encode_encrypt h
  obtain ⟨-, hencrypt, -⟩ := decodeFollowsTheFields (encode (.encrypt rounds))
  rw [hencrypt (by omega) (by omega) (by omega)]
  congr 2
  omega

theorem decode_encode {i : Instr} (h : i.wf = true) : decode (encode i) = .instr i := by
  cases i with
  | encrypt rounds => exact decode_encode_encrypt (of_decide_eq_true h)
  | decrypt => rfl

/-- ROUNDS is eight bits wide, so a decoded immediate fits it. -/
theorem wf_of_decode {w : Word} {i : Instr} (h : decode w = .instr i) : i.wf = true := by
  obtain ⟨-, ⟨-, rfl⟩ | ⟨-, -, rfl⟩⟩ := decode_eq_instr h
  · exact decide_eq_true (fieldRounds w).isLt
  · rfl

/-- The four fields cover the word, so the word of the decoded command has every field of `w`. -/
theorem encode_of_decode {w : Word} {i : Instr} (h : decode w = .instr i) : encode i = w := by
  have hw : w.toNat < 2 ^ 32 := w.isLt
  obtain ⟨⟨h1, h0⟩, ⟨hop, rfl⟩ | ⟨hop, hr, rfl⟩⟩ := decode_eq_instr h
  all_goals
    have hrsv1 : w.toNat / 2 ^ 16 = 0 := fieldRsv1_eq_iff.1 h1
    have hrsv0 : w.toNat / 2 ^ 4 % 2 ^ 4 = 0 := fieldRsv0_eq_iff.1 h0
    apply BitVec.eq_of_toNat_eq
  · have hop1 : w.toNat % 2 ^ 4 = 1 := fieldOp_eq_iff.1 hop
    rw [toNat_encode_encrypt (fieldRounds w).isLt, toNat_fieldRounds]
    omega
  · have hop2 : w.toNat % 2 ^ 4 = 2 := fieldOp_eq_iff.1 hop
    have hr0 : w.toNat / 2 ^ 8 % 2 ^ 8 = 0 := fieldRounds_eq_iff.1 hr
    change 2 = w.toNat
    omega

/-! ### Match and mask (R72) -/

/-- The mask of ENCRYPT keeps RSV1, RSV0 and OP whole. -/
theorem fields_of_encrypt_mask {w : Word} (h : w &&& 0xFFFF00FF = 0x00000001) :
    fieldRsv1 w = 0 ∧ fieldRsv0 w = 0 ∧ fieldOp w = 0x1 := by
  have hfield : ∀ start len, (w &&& 0xFFFF00FF).extractLsb' start len =
      w.extractLsb' start len &&& (0xFFFF00FF : Word).extractLsb' start len := fun _ _ => BitVec.extractLsb'_and
  have h1 := hfield 16 16
  have h0 := hfield 4 4
  have hop := hfield 0 4
  rw [h] at h1 h0 hop
  exact ⟨(BitVec.and_allOnes.symm.trans h1.symm), (BitVec.and_allOnes.symm.trans h0.symm),
    (BitVec.and_allOnes.symm.trans hop.symm)⟩

theorem decode_eq_encrypt_iff_mask {w : Word} :
    (∃ r, decode w = .instr (.encrypt r)) ↔ w &&& 0xFFFF00FF = 0x00000001 := by
  constructor
  · rintro ⟨r, h⟩
    have hmask := Laws.MatchMask.encrypt r (wf_of_decode h)
    rwa [encode_of_decode h] at hmask
  · intro h
    obtain ⟨h1, h0, hop⟩ := fields_of_encrypt_mask h
    exact ⟨_, decode_of_op_one (by simp only [h1, h0, ne_eq, not_true_eq_false, or_self, not_false_eq_true]) hop⟩

/-- The mask of DECRYPT keeps the whole word, and only one word decodes to DECRYPT. -/
theorem decode_eq_decrypt_iff_mask {w : Word} :
    decode w = .instr .decrypt ↔ w &&& 0xFFFFFFFF = 0x00000002 := by
  have hall : w &&& 0xFFFFFFFF = w := BitVec.and_allOnes
  rw [hall]
  exact ⟨fun h => (encode_of_decode h).symm, fun h => h ▸ decode_encode (i := .decrypt) rfl⟩

/-! ### The obligations -/

/-- Settles O18: the four fields of the word are the base-16 and base-256 digits that `encode` writes. -/
theorem decodeAndEncodeAgree : Obligations.DecodeAndEncodeAgree :=
  ⟨fun _ h => decode_encode h, fun _ _ h => ⟨wf_of_decode h, encode_of_decode h⟩⟩

/-- Settles O20: the masks keep the fields that the branches of `Decode` compare. -/
theorem decodeSelectsTheMatchingRow : Obligations.DecodeSelectsTheMatchingRow :=
  fun _ => ⟨decode_eq_encrypt_iff_mask, decode_eq_decrypt_iff_mask⟩

/-- Settles O21: nine closed words, each decoded by evaluation. -/
theorem sampleWordsDecodeAsListed : Obligations.SampleWordsDecodeAsListed := by
  unfold Obligations.SampleWordsDecodeAsListed
  decide

end Sys2Proof.Machine
end

section
/-! PROOFS. What the world outside does to the core, one rule per action (spec/10_state.md R37, R41, spec/20_memory.md R66,
spec/30_encoding.md R79, R82, spec/43_stream_combiner.md R126). -/

namespace Sys2Proof.Machine

/-! ### The two commands as one (R134, R135) -/

/-- The kind a command puts in OPK (R27). -/
def commandKind : Instr → CmdKind
  | .encrypt _ => .enc
  | .decrypt => .dec

theorem exec_eq_runCommand (i : Instr) (s : State) : exec i s = runCommand (commandKind i) (commandRounds i) s := by
  cases i <;> rfl

theorem startCommand_eq_issueCommand (i : Instr) (s : State) :
    startCommand i s = issueCommand (commandKind i) (commandRounds i) s := by
  cases i <;> rfl

theorem commandWrite_of_instr {w : Word} {i : Instr} (h : decode w = .instr i) (s : State) :
    commandWrite w s = exec i (storeCmd w s) := by
  rw [commandWrite, h]

theorem commandIssue_of_instr {w : Word} {i : Instr} (h : decode w = .instr i) (s : State) :
    commandIssue w s = issueCommand (commandKind i) (commandRounds i) (storeCmd w s) := by
  rw [commandIssue, h]
  exact startCommand_eq_issueCommand i (storeCmd w s)

theorem commandIssue_of_illegal {w : Word} {why : IllegalWord} (h : decode w = .illegal why) (s : State) :
    commandIssue w s = .next (raiseCondition .illegalCommand (storeCmd w s)) := by
  rw [commandIssue, h]

/-! ### The gates of the host's accesses (R41, R126, R180) -/

theorem isIdle_eq_false {s : State} (h : s.comb.phase ≠ .idle) : isIdle s = false := decide_eq_false h

/-- While a command runs another one is refused (R126). -/
theorem whenIdle_of_running {s : State} (h : s.comb.phase ≠ .idle) (command : Host.Outcome State Fault Refusal) :
    whenIdle s command = .refused .commandWhileRunning := by
  rw [whenIdle, isIdle_eq_false h]
  rfl

/-- While a command runs the host's register accesses are refused (R180). -/
theorem betweenCommands_of_running {s : State} (h : s.comb.phase ≠ .idle) (access : Host.Outcome State Fault Refusal) :
    betweenCommands s access = .refused .hostAccessWhileRunning := by
  rw [betweenCommands, isIdle_eq_false h]
  rfl

theorem betweenCommands_of_idle {s : State} (h : isIdle s = true) (access : Host.Outcome State Fault Refusal) :
    betweenCommands s access = access := if_pos h

theorem whenIdle_eq_next {s t : State} {command : Host.Outcome State Fault Refusal} :
    whenIdle s command = .next t ↔ isIdle s = true ∧ command = .next t := by
  by_cases h : isIdle s = true <;> simp [whenIdle, h]

theorem betweenCommands_eq_next {s t : State} {access : Host.Outcome State Fault Refusal} :
    betweenCommands s access = .next t ↔ isIdle s = true ∧ access = .next t := by
  by_cases h : isIdle s = true <;> simp [betweenCommands, h]

theorem issueCommand_of_running {s : State} (h : s.comb.phase ≠ .idle) (kind : CmdKind) (rounds : Nat) :
    issueCommand kind rounds s = .refused .commandWhileRunning := by
  rw [issueCommand, isIdle_eq_false h]
  rfl

theorem exec_of_running {s : State} (h : s.comb.phase ≠ .idle) (i : Instr) :
    exec i s = .refused .commandWhileRunning := by
  rw [exec_eq_runCommand, runCommand, issueCommand_of_running h, andThen_refused]

/-! ### Register accesses (R41) -/

/-- A write of any register but CMD goes through the gate to `writeReg`. -/
theorem deliver_wr_of_ne_cmd {r : HostReg} (hr : r ≠ .cmd) (v : Nat) (s : State) :
    deliver (.wr r v) s = betweenCommands s (writeReg r v s) := by
  have hwrite : hostWrite r v s = writeReg r v s := if_neg hr
  rw [← hwrite]
  cases r
  case cmd => exact absurd rfl hr
  all_goals rfl

/-- A pending write of a register but CMD on an idle core goes on where the register ignores it or holds the value. -/
theorem step_of_register_write {s : State} {r : HostReg} {v : Nat} {es : List Event} (hidle : isIdle s = true)
    (hev : s.events = .wr r v :: es) (hr : r ≠ .cmd) (hfits : readOnly r = true ∨ v < 2 ^ regWidth s.addrBits r) :
    step s = .next { s with events := es, regs := storeReg s.regs r v } := by
  rw [step_of_event hev, deliver_wr_of_ne_cmd hr]
  exact betweenCommands_eq_next.2 ⟨hidle, writeReg_eq_next.2 ⟨hfits, rfl⟩⟩

/-- The read-only registers are those with numbers 1 and 11 to 14 (R31, R41). -/
theorem readOnly_iff_regNumber {r : HostReg} : readOnly r = true ↔ regNumber r = 1 ∨ 11 ≤ regNumber r := by
  cases r <;> decide

/-- A store reaches no other register. -/
theorem readReg_storeReg (g : HostRegs) (r q : HostReg) (v : Nat) :
    readReg (storeReg g r v) q = if q = r then readReg (storeReg g r v) r else readReg g q := by
  cases r <;> cases q <;> rfl

/-- A value that fits is read back as it was stored. -/
theorem readReg_storeReg_same {g : HostRegs} {r : HostReg} {v w : Nat} (hr : readOnly r = false)
    (hv : v < 2 ^ regWidth w r) : readReg (storeReg g r v) r = v := by
  cases r
  case cmd | ctrIn => exact (BitVec.toNat_ofNat _ _).trans (Nat.mod_eq_of_lt hv)
  case status | ctrOut | keySize | nonceSize | blockSize => cases hr
  all_goals rfl

/-- `MOV` reads CTR_OUT and stores the same 64 bits in CTR_IN (R79). -/
theorem hostMov_eq (s : State) :
    hostMov s = { s with hostRead := s.regs.ctrOut.toNat, regs := { s.regs with ctrIn := s.regs.ctrOut } } := by
  simp only [hostMov, hostReadReg, storeReg, readReg, BitVec.ofNat_toNat, BitVec.setWidth_eq]

theorem step_of_mov {s : State} {es : List Event} (hidle : isIdle s = true) (hev : s.events = .mov :: es) :
    step s = .next (hostMov { s with events := es }) := by
  rw [step_of_event hev]
  exact betweenCommands_of_idle hidle _

/-! ### Accesses of other agents (R66) -/

theorem storeRaces_iff {g : HostRegs} {a : Nat} :
    storeRaces g a = true ↔ inside (keyBuffer g) a = true ∨ inside (nonceBuffer g) a = true ∨
      inside (inBuffer g) a = true ∨ inside (outBuffer g) a = true := by
  simp only [storeRaces, Bool.or_eq_true, or_assoc]

/-- An address that does not exist is refused first (R42, R50). -/
theorem agentAccess_of_no_address {a : Nat} {s : State} (h : 2 ^ s.addrBits ≤ a) (races : Bool) (t : State) :
    agentAccess a races s t = .refused (.noSuchAddress a) := if_pos h

/-- While a command runs a racing access is refused (R66). -/
theorem agentAccess_of_race {a : Nat} {s : State} (hphase : s.comb.phase ≠ .idle) (ha : a < 2 ^ s.addrBits) (t : State) :
    agentAccess a true s t = .refused (.race a) := by
  rw [agentAccess, if_neg (Nat.not_le.2 ha), isIdle_eq_false hphase]
  rfl

/-! ### Runs of steps -/

/-- A run goes on from the state its first step leaves. -/
theorem core_run_of_next {s t : State} (h : step s = .next t) (n : Nat) :
    Host.Core.run Sys2Proof.core (n + 1) s = Host.Core.run Sys2Proof.core n t :=
  (core_run_succ n s).trans (congrArg (andThen · _) h)

theorem core_run_one (s : State) : Host.Core.run Sys2Proof.core 1 s = step s := by
  refine (core_run_succ 0 s).trans ?_
  cases step s <;> rfl

/-! ### A command statement: nine operand actions and the write of CMD (R82) -/

/-- The eight operand writes of a statement before the counter's (R82). -/
def operandWrites (out inp nonce key : Buffer) : List (HostReg × Nat) :=
  [(.outAddr, out.addr), (.outLen, out.len), (.inAddr, inp.addr), (.inLen, inp.len),
   (.nonceAddr, nonce.addr), (.nonceLen, nonce.len), (.keyAddr, key.addr), (.keyLen, key.len)]

/-- A list of register writes as pending actions, and what it makes of the registers. -/
def writeActions (ws : List (HostReg × Nat)) : List Event := ws.map fun p => .wr p.1 p.2
def storeAll (g : HostRegs) (ws : List (HostReg × Nat)) : HostRegs := ws.foldl (fun g p => storeReg g p.1 p.2) g

theorem commandActions_eq (out inp nonce key : Buffer) (ctr : Option CtrOperand) (word : Nat) :
    commandActions out inp nonce key ctr word =
      writeActions (operandWrites out inp nonce key) ++ [ctrActions ctr, .wr .cmd word] := rfl

/-- The pending writes of registers that hold their values take place one a step. -/
theorem run_writeActions {ws : List (HostReg × Nat)} {s : State} {es : List Event} (n : Nat) (hidle : isIdle s = true)
    (hev : s.events = writeActions ws ++ es) (hws : ∀ p ∈ ws, p.1 ≠ .cmd ∧ p.2 < 2 ^ regWidth s.addrBits p.1) :
    Host.Core.run Sys2Proof.core (ws.length + n) s =
      Host.Core.run Sys2Proof.core n { s with events := es, regs := storeAll s.regs ws } := by
  induction ws generalizing s with
  | nil =>
    have hsame : { s with events := es, regs := storeAll s.regs [] } = s := by
      rw [show es = s.events from hev.symm]
      rfl
    rw [hsame, List.length_nil, Nat.zero_add]
  | cons p ws ih =>
    obtain ⟨⟨hcmd, hfits⟩, hrest⟩ := List.forall_mem_cons.1 hws
    rw [List.length_cons, Nat.succ_add, core_run_of_next (step_of_register_write hidle hev hcmd (.inr hfits))]
    exact ih hidle rfl hrest

/-- The state after the operand writes of a statement, with the rest of its actions pending. -/
def operandsStored (s : State) (out inp nonce key : Buffer) (es : List Event) : State :=
  { s with
    events := es
    regs := { s.regs with
      outAddr := out.addr
      outLen := out.len
      inAddr := inp.addr
      inLen := inp.len
      nonceAddr := nonce.addr
      nonceLen := nonce.len
      keyAddr := key.addr
      keyLen := key.len } }

/-- The operand writes of a statement leave the registers and the pending counter action (R82). -/
theorem run_operandWrites {s : State} {out inp nonce key : Buffer} {ctr : Option CtrOperand} {word : Nat}
    (hidle : isIdle s = true) (hev : s.events = commandActions out inp nonce key ctr word)
    (hfit : ∀ p ∈ operandWrites out inp nonce key, p.2 < 2 ^ s.addrBits) :
    Host.Core.run Sys2Proof.core 10 s =
      Host.Core.run Sys2Proof.core 2 (operandsStored s out inp nonce key [ctrActions ctr, .wr .cmd word]) := by
  refine run_writeActions (ws := operandWrites out inp nonce key) 2 hidle (hev.trans (commandActions_eq ..)) ?_
  simp only [operandWrites, List.forall_mem_cons] at hfit ⊢
  obtain ⟨h1, h2, h3, h4, h5, h6, h7, h8, -⟩ := hfit
  exact ⟨⟨nofun, h1⟩, ⟨nofun, h2⟩, ⟨nofun, h3⟩, ⟨nofun, h4⟩, ⟨nofun, h5⟩, ⟨nofun, h6⟩, ⟨nofun, h7⟩, ⟨nofun, h8⟩, nofun⟩

/-- The last action of a statement runs its command. -/
theorem run_cmd_write {s : State} {i : Instr} (hidle : isIdle s = true) (hi : i.wf = true)
    (hev : s.events = [.wr .cmd (encode i).toNat]) :
    Host.Core.run Sys2Proof.core 1 s = exec i { s with events := [], regs := { s.regs with cmd := encode i } } := by
  rw [core_run_one, step_of_cmd_write hidle hev, commandWrite_of_instr (decode_encode hi)]
  rfl

section
variable {s : State} {out inp nonce key : Buffer} {i : Instr} {word : Nat}
  (hidle : isIdle s = true) (hi : i.wf = true) (hword : (encode i).toNat = word)
  (hfit : ∀ p ∈ operandWrites out inp nonce key, p.2 < 2 ^ s.addrBits)
include hidle hi hword hfit

/-- A statement with a number for its counter loads the nine operand registers and CMD, and runs its command (R82). -/
theorem run_statement_number {c : Nat} (hc : c < 2 ^ 64)
    (hev : s.events = commandActions out inp nonce key (some (.number c)) word) :
    Host.Core.run Sys2Proof.core 10 s =
      exec i { s with events := [], regs := operandRegs s.regs out inp nonce key c word } := by
  subst hword
  have hphase : s.comb.phase = .idle := isIdle_iff.1 hidle
  have hctr := step_of_register_write (s := operandsStored s out inp nonce key [.wr .ctrIn c, .wr .cmd (encode i).toNat])
    hidle rfl nofun (.inr hc)
  have hcmd : BitVec.ofNat 32 (encode i).toNat = encode i := (BitVec.ofNat_toNat 32 _).trans (BitVec.setWidth_eq _)
  refine Eq.trans (run_operandWrites hidle hev hfit) ?_
  refine Eq.trans (core_run_of_next hctr 1) ?_
  refine Eq.trans (run_cmd_write (isIdle_iff.2 hphase) hi rfl) ?_
  rw [operandRegs, hcmd]
  rfl

/-- A statement with CTR_OUT for its counter moves the counter last returned (R79, R82). -/
theorem run_statement_ctrOut (hev : s.events = commandActions out inp nonce key (some .ctrOut) word) :
    Host.Core.run Sys2Proof.core 10 s =
      exec i { s with
        events := []
        hostRead := s.regs.ctrOut.toNat
        regs := operandRegs s.regs out inp nonce key s.regs.ctrOut.toNat word } := by
  subst hword
  have hphase : s.comb.phase = .idle := isIdle_iff.1 hidle
  have hmov := step_of_mov (s := operandsStored s out inp nonce key [.mov, .wr .cmd (encode i).toNat]) hidle rfl
  have hcmd : BitVec.ofNat 32 (encode i).toNat = encode i := (BitVec.ofNat_toNat 32 _).trans (BitVec.setWidth_eq _)
  refine Eq.trans (run_operandWrites hidle hev hfit) ?_
  refine Eq.trans (core_run_of_next hmov 1) ?_
  refine Eq.trans (run_cmd_write (isIdle_iff.2 hphase) hi rfl) ?_
  rw [hostMov_eq, operandRegs, hcmd, BitVec.ofNat_toNat, BitVec.setWidth_eq]
  rfl

end

/-! ### The obligations -/

/-- Settles O22: the step is the write of CMD, and storing the word comes before `exec`. -/
theorem stepRunsTheDecodedCommand : Obligations.StepRunsTheDecodedCommand := by
  intro s w es i hidle hev hdecode
  rw [step_of_cmd_write hidle hev, commandWrite_of_instr hdecode]
  rfl

/-- Settles O40: every access of the host passes one of the two gates, and both are shut while a command runs. -/
theorem nothingIsIssuedWhileACommandRuns : Obligations.NothingIsIssuedWhileACommandRuns := by
  intro s hphase
  refine ⟨exec_of_running hphase, fun v es hev => ?_, fun r v es hr hev => ?_, fun w es hev => ?_, fun r es hev => ?_,
    fun es hev => ?_⟩
  · rw [step_of_event hev]
    exact whenIdle_of_running hphase _
  · rw [step_of_event hev, deliver_wr_of_ne_cmd hr]
    exact betweenCommands_of_running hphase _
  · rw [step_of_event hev]
    exact whenIdle_of_running hphase _
  · rw [step_of_event hev]
    exact betweenCommands_of_running hphase _
  · rw [step_of_event hev]
    exact betweenCommands_of_running hphase _

/-- Settles O54: the buffers named in the premise are those whose accesses race. -/
theorem racesWithARunningCommandAreRefused : Obligations.RacesWithARunningCommandAreRefused := by
  intro s a es hphase ha
  refine ⟨fun hin b hev => ?_, fun hout hev => ?_⟩
  · have hrace : storeRaces s.regs a = true := storeRaces_iff.2 hin
    rw [step_of_event hev, deliver, agentStore, hrace]
    exact agentAccess_of_race hphase ha _
  · have hrace : loadRaces s.regs a = true := hout
    rw [step_of_event hev, deliver, agentLoad, hrace]
    exact agentAccess_of_race hphase ha _

/-- Settles O55: outside the racing buffers the gate is open, and a byte write changes one byte. -/
theorem accessesOfOtherAgentsActOnOneByte : Obligations.AccessesOfOtherAgentsActOnOneByte := by
  intro s a b es hwf
  refine ⟨fun ha hfree hev => ?store, fun ha hfree hev => ?load, fun ha hev => ?noAddress⟩
  case store =>
    have hopen : isIdle s = true ∨ storeRaces s.regs a = false := hfree.imp_right fun ⟨hread, hout⟩ => by
      rw [Bool.eq_false_iff, ne_eq, storeRaces_iff]
      tauto
    rw [step_of_event hev, deliver]
    exact ⟨_, agentStore_eq_next.2 ⟨ha, hopen, rfl⟩, readByte_writeByte_same hwf a b,
      fun c hc => readByte_writeByte_of_ne s.mem b hc, rfl⟩
  case load =>
    rw [step_of_event hev, deliver]
    exact agentLoad_eq_next.2 ⟨ha, hfree.imp_right Bool.eq_false_iff.2, rfl⟩
  case noAddress =>
    rcases hev with hev | hev
    · rw [step_of_event hev]
      exact agentAccess_of_no_address ha _ _
    · rw [step_of_event hev]
      exact agentAccess_of_no_address ha _ _

/-- Settles O56: a register write is one store, which a read-only register discards, and a read touches no register. -/
theorem hostAccessesActOnOneRegister : Obligations.HostAccessesActOnOneRegister := by
  intro s r v es hidle
  refine ⟨fun hev hnum => ?readOnly, fun hev hlow hhigh hv => ?operand, fun hev => ?read⟩
  case readOnly =>
    have hro : readOnly r = true := readOnly_iff_regNumber.2 hnum
    have hcmd : r ≠ .cmd := by
      rintro rfl
      cases hro
    rw [step_of_register_write hidle hev hcmd (.inl hro), storeReg_of_readOnly hro]
  case operand =>
    have hro : readOnly r = false := by
      rw [Bool.eq_false_iff, ne_eq, readOnly_iff_regNumber]
      omega
    have hcmd : r ≠ .cmd := by
      rintro rfl
      cases hlow
    exact ⟨_, step_of_register_write hidle hev hcmd (.inr hv), readReg_storeReg_same hro hv,
      fun q hq => (readReg_storeReg s.regs r q v).trans (if_neg hq), rfl⟩
  case read =>
    rw [step_of_event hev]
    exact betweenCommands_of_idle hidle _

/-- Settles O60: the step is `MOV`, which copies 64 bits into 64 bits. -/
theorem movCopiesTheReturnedCounter : Obligations.MovCopiesTheReturnedCounter := by
  intro s es hidle hev
  rw [step_of_mov hidle hev, hostMov_eq]

/-- Settles O58: eight operand writes, the counter's action and the write of CMD, one a step. -/
theorem statementsExpandToTheirCommand : Obligations.StatementsExpandToTheirCommand := by
  intro s out inp nonce key c rounds hidle h1 h2 h3 h4 h5 h6 h7 h8 hc hr
  have hfit : ∀ p ∈ operandWrites out inp nonce key, p.2 < 2 ^ s.addrBits := by
    simp only [operandWrites, List.forall_mem_cons]
    exact ⟨h1, h2, h3, h4, h5, h6, h7, h8, nofun⟩
  have hwf : (Instr.encrypt rounds).wf = true := decide_eq_true hr
  have hword := toNat_encode_encrypt hr
  exact ⟨run_statement_number hidle hwf hword hfit hc, run_statement_ctrOut hidle hwf hword hfit,
    run_statement_number (i := .decrypt) hidle rfl rfl hfit hc, run_statement_ctrOut (i := .decrypt) hidle rfl rfl hfit⟩

end Sys2Proof.Machine
end

section
/-! PROOFS. The invariant of the machine: one lemma per action (spec/10_state.md R26 to R31, spec/43_stream_combiner.md R141). -/

namespace Sys2Proof.Machine

/-! ### The parts of the invariant -/

/-- The host-visible address and length registers fit in `w` bits (R31). -/
abbrev OperandsFit (w : Nat) (g : HostRegs) : Prop :=
  g.outAddr < 2 ^ w ∧ g.outLen < 2 ^ w ∧ g.inAddr < 2 ^ w ∧ g.inLen < 2 ^ w ∧
  g.nonceAddr < 2 ^ w ∧ g.nonceLen < 2 ^ w ∧ g.keyAddr < 2 ^ w ∧ g.keyLen < 2 ^ w

/-- The internal ones do (R27). -/
abbrev CombinerFits (w : Nat) (c : Combiner) : Prop :=
  c.off < 2 ^ w ∧ c.len < 2 ^ w ∧ c.oa < 2 ^ w ∧ c.ia < 2 ^ w

theorem registersFit_iff {w : Nat} {g : HostRegs} {c : Combiner} :
    registersFit w g c = true ↔ OperandsFit w g ∧ CombinerFits w c := by
  simp only [registersFit, OperandsFit, CombinerFits, List.all_cons, List.all_nil, Bool.and_eq_true, decide_eq_true_eq,
    and_true, and_assoc]

/-- What a command in the chunk loop has settled (R26, R27). -/
structure RunOk (s : State) : Prop where
  lengths : ValidLengths s.regs
  contract : BuffersInContract s.addrBits s.regs
  rounds : LegalRounds s.engine.rc.toNat
  len : s.comb.len = s.regs.inLen
  ia : s.comb.ia = s.regs.inAddr
  oa : s.comb.oa = s.regs.outAddr
  off_le : s.comb.off ≤ s.comb.len
  boundary : s.comb.off % 64 = 0 ∨ s.comb.off = s.comb.len

theorem sequencerOk_of_idle {s : State} (h : s.comb.phase = .idle) : sequencerOk s = true := by
  rw [sequencerOk, h]

theorem sequencerOk_of_issued {s : State} {rounds : Nat} (h : s.comb.phase = .issued rounds) :
    sequencerOk s = true ↔ validate rounds s.regs = none ∧ BuffersInContract s.addrBits s.regs := by
  simp only [sequencerOk, h, Bool.and_eq_true, decide_eq_true_eq]

theorem sequencerOk_of_run {s : State} (h : s.comb.phase = .run) : sequencerOk s = true ↔ RunOk s := by
  simp only [sequencerOk, h, Bool.and_eq_true, Bool.or_eq_true, decide_eq_true_eq, legalRounds_iff]
  constructor
  · rintro ⟨⟨⟨⟨⟨⟨⟨hlens, hcon⟩, hrounds⟩, hlen⟩, hia⟩, hoa⟩, hoff⟩, hbound⟩
    exact ⟨hlens, hcon, hrounds, hlen, hia, hoa, hoff, hbound⟩
  · rintro ⟨hlens, hcon, hrounds, hlen, hia, hoa, hoff, hbound⟩
    exact ⟨⟨⟨⟨⟨⟨⟨hlens, hcon⟩, hrounds⟩, hlen⟩, hia⟩, hoa⟩, hoff⟩, hbound⟩

theorem RunOk.of_inv {s : State} (h : Inv s) (hp : s.comb.phase = .run) : RunOk s := by
  obtain ⟨-, -, -, -, hseq⟩ := h
  exact (sequencerOk_of_run hp).1 hseq

/-- BLOCK and a move of OFF to another boundary leave the rest as it was settled. -/
theorem RunOk.advance {s t : State} (h : RunOk s) (hregs : t.regs = s.regs) (hbits : t.addrBits = s.addrBits)
    (heng : t.engine = block s.engine) (hlen : t.comb.len = s.comb.len) (hia : t.comb.ia = s.comb.ia)
    (hoa : t.comb.oa = s.comb.oa) (hoff : t.comb.off ≤ s.comb.len)
    (hbound : t.comb.off % 64 = 0 ∨ t.comb.off = s.comb.len) : RunOk t where
  lengths := hregs ▸ h.lengths
  contract := hregs ▸ hbits ▸ h.contract
  rounds := by rw [heng, block_rc]; exact h.rounds
  len := by rw [hlen, hregs, h.len]
  ia := by rw [hia, hregs, h.ia]
  oa := by rw [hoa, hregs, h.oa]
  off_le := hlen ▸ hoff
  boundary := hlen ▸ hbound

/-- A free combiner has registers of the right width (R27). -/
theorem freeCombiner_fits (w d : Nat) (b : Block) : CombinerFits w (freeCombiner w d b) :=
  ⟨freeAddr_lt w d 111, freeAddr_lt w d 112, freeAddr_lt w d 113, freeAddr_lt w d 114⟩

/-- A legal round count fits the five bits of `rc` (R26). -/
theorem toNat_rc_of_legal {rounds : Nat} (h : LegalRounds rounds) : (BitVec.ofNat 5 rounds).toNat = rounds := by
  obtain rfl | rfl | rfl := h <;> rfl

/-! ### The steps of the sequencer keep it -/

theorem Inv.latch {rounds : Nat} {s t : State} (h : Inv s) (hp : s.comb.phase = .issued rounds)
    (ht : latch rounds s = .next t) : Inv t := by
  obtain ⟨hwf, hmem, hregs, hscratch, hseq⟩ := h
  obtain ⟨hval, hcon⟩ := (sequencerOk_of_issued hp).1 hseq
  obtain ⟨hlens, hrounds⟩ := validate_eq_none.1 hval
  obtain ⟨hops, -⟩ := registersFit_iff.1 hregs
  have hfit := hops
  obtain ⟨hoa, -, hia, hlen, -⟩ := hfit
  obtain ⟨-, -, rfl⟩ := latch_eq_next.1 ht
  have hrc : LegalRounds (BitVec.ofNat 5 rounds).toNat := (toNat_rc_of_legal hrounds).symm ▸ hrounds
  exact ⟨hwf, hmem, registersFit_iff.2 ⟨hops, Nat.two_pow_pos _, hlen, hoa, hia⟩, hscratch,
    (sequencerOk_of_run rfl).2 ⟨hlens, hcon, hrc, rfl, rfl, rfl, Nat.zero_le _, .inl rfl⟩⟩

/-- Memory after FULLSTEP (R130). -/
theorem afterFull_mem (s : State) : (afterFull s).mem = writeBytes s.mem (outAt s) (fullOutput s) := by
  rw [afterFull]

theorem Inv.fullStep {s t : State} (h : Inv s) (hp : s.comb.phase = .run) (hrem : 64 ≤ remaining s)
    (ht : fullStep s = .next t) : Inv t := by
  have hrun := RunOk.of_inv h hp
  obtain ⟨hwf, hmem, hregs, hscratch, -⟩ := h
  obtain ⟨hops, -, hlen, hoa, hia⟩ := registersFit_iff.1 hregs
  obtain ⟨-, hout, rfl⟩ := fullStep_eq_next.1 ht
  have hoff : s.comb.off + 64 ≤ s.comb.len := by
    unfold remaining at hrem
    omega
  have hbound : (s.comb.off + 64) % 64 = 0 := by
    have hold := hrun.boundary
    omega
  have hfit : outAt s + (fullOutput s).length ≤ 2 ^ s.addrBits := by
    rw [length_fullOutput]
    exact hout.1
  have hwf' : Memory.wf (afterFull s).mem = true := by
    rw [afterFull_mem]
    exact writeBytes_wf hwf (outAt s) (fullOutput s)
  have hmem' : Memory.fits s.addrBits (afterFull s).mem = true := by
    rw [afterFull_mem]
    exact writeBytes_fits hmem hfit
  exact ⟨hwf', hmem',
    registersFit_iff.2 ⟨hops, Nat.lt_of_le_of_lt hoff hlen, hlen, hoa, hia⟩, hscratch,
    (sequencerOk_of_run (s := afterFull s) hp).2 (hrun.advance rfl rfl rfl rfl rfl rfl hoff (.inl hbound))⟩

theorem Inv.partStep {s t : State} (h : Inv s) (hp : s.comb.phase = .run) (ht : partStep s = .next t) : Inv t := by
  have hrun := RunOk.of_inv h hp
  obtain ⟨hwf, hmem, hregs, -, -⟩ := h
  obtain ⟨hops, -, hlen, hoa, hia⟩ := registersFit_iff.1 hregs
  obtain ⟨-, hout, rfl⟩ := partStep_eq_next.1 ht
  exact ⟨writeBytes_wf hwf _ _, writeBytes_fits hmem hout.1, registersFit_iff.2 ⟨hops, hlen, hlen, hoa, hia⟩, rfl,
    (sequencerOk_of_run (s := afterPart s) hp).2 (hrun.advance rfl rfl rfl rfl rfl rfl le_rfl (.inr rfl))⟩

theorem Inv.finish {s : State} (h : Inv s) : Inv (finish s) := by
  obtain ⟨hwf, hmem, hregs, hscratch, -⟩ := h
  exact ⟨hwf, hmem, registersFit_iff.2 ⟨(registersFit_iff.1 hregs).1, freeCombiner_fits _ _ _⟩, hscratch,
    sequencerOk_of_idle rfl⟩

theorem Inv.seqStep {s t : State} (h : Inv s) (ht : seqStep s = .next t) : Inv t := by
  obtain ⟨-, rfl⟩ | ⟨rounds, hp, hl⟩ | ⟨hp, hrem, hf⟩ | ⟨hp, -, -, hpart⟩ | ⟨-, -, rfl⟩ := seqStep_cases ht
  · exact h
  · exact h.latch hp hl
  · exact h.fullStep hp hrem hf
  · exact h.partStep hp hpart
  · exact h.finish

/-! ### The host's actions keep it -/

/-- CMD and STATUS have no part in the invariant. -/
theorem Inv.storeCmd {s : State} (h : Inv s) (w : Word) : Inv (storeCmd w s) := h

theorem Inv.raiseCondition {s : State} (h : Inv s) (e : Condition) : Inv (raiseCondition e s) := h

theorem Inv.issueCommand {kind : CmdKind} {rounds : Nat} {s t : State} (h : Inv s)
    (ht : issueCommand kind rounds s = .next t) : Inv t := by
  obtain ⟨hwf, hmem, hregs, hscratch, -⟩ := h
  obtain ⟨hidle, ⟨e, -, rfl⟩ | ⟨hval, hcon, rfl⟩⟩ := issueCommand_eq_next.1 ht
  · exact ⟨hwf, hmem, hregs, hscratch, sequencerOk_of_idle (isIdle_iff.1 hidle)⟩
  · exact ⟨hwf, hmem, hregs, hscratch, (sequencerOk_of_issued rfl).2 ⟨hval, hcon⟩⟩

theorem Inv.exec {i : Instr} {s t : State} (h : Inv s) (ht : exec i s = .next t) : Inv t := by
  rw [exec_eq_runCommand] at ht
  obtain ⟨u, hu, hrun⟩ := runCommand_eq_next.1 ht
  exact runSequencer_keeps (P := Inv) (fun _ _ => Inv.seqStep) (h.issueCommand hu) hrun

theorem Inv.commandWrite {w : Word} {s t : State} (h : Inv s) (ht : commandWrite w s = .next t) : Inv t := by
  cases hd : decode w with
  | instr i =>
    rw [commandWrite_of_instr hd] at ht
    exact (h.storeCmd w).exec ht
  | illegal why =>
    rw [commandWrite_of_illegal hd] at ht
    cases ht
    exact (h.storeCmd w).raiseCondition _

theorem Inv.commandIssue {w : Word} {s t : State} (h : Inv s) (ht : commandIssue w s = .next t) : Inv t := by
  cases hd : decode w with
  | instr i =>
    rw [commandIssue_of_instr hd] at ht
    exact (h.storeCmd w).issueCommand ht
  | illegal why =>
    rw [commandIssue_of_illegal hd] at ht
    cases ht
    exact (h.storeCmd w).raiseCondition _

/-- A value that fits its register leaves all registers fitting. -/
theorem storeReg_fits {w v : Nat} {g : HostRegs} {r : HostReg} (h : OperandsFit w g)
    (hv : readOnly r = true ∨ v < 2 ^ regWidth w r) : OperandsFit w (storeReg g r v) := by
  rcases hv with hro | hv
  · rwa [storeReg_of_readOnly hro]
  · obtain ⟨hoa, hol, hia, hil, hna, hnl, hka, hkl⟩ := h
    cases r
    case outAddr => exact ⟨hv, hol, hia, hil, hna, hnl, hka, hkl⟩
    case outLen => exact ⟨hoa, hv, hia, hil, hna, hnl, hka, hkl⟩
    case inAddr => exact ⟨hoa, hol, hv, hil, hna, hnl, hka, hkl⟩
    case inLen => exact ⟨hoa, hol, hia, hv, hna, hnl, hka, hkl⟩
    case nonceAddr => exact ⟨hoa, hol, hia, hil, hv, hnl, hka, hkl⟩
    case nonceLen => exact ⟨hoa, hol, hia, hil, hna, hv, hka, hkl⟩
    case keyAddr => exact ⟨hoa, hol, hia, hil, hna, hnl, hv, hkl⟩
    case keyLen => exact ⟨hoa, hol, hia, hil, hna, hnl, hka, hv⟩
    all_goals exact ⟨hoa, hol, hia, hil, hna, hnl, hka, hkl⟩

/-- On an idle core nothing is settled that a register write could upset. -/
theorem Inv.writeReg {r : HostReg} {v : Nat} {s t : State} (h : Inv s) (hidle : isIdle s = true)
    (ht : writeReg r v s = .next t) : Inv t := by
  obtain ⟨hwf, hmem, hregs, hscratch, -⟩ := h
  obtain ⟨hops, hcomb⟩ := registersFit_iff.1 hregs
  obtain ⟨hv, rfl⟩ := writeReg_eq_next.1 ht
  exact ⟨hwf, hmem, registersFit_iff.2 ⟨storeReg_fits hops hv, hcomb⟩, hscratch,
    sequencerOk_of_idle (isIdle_iff.1 hidle)⟩

theorem Inv.hostWrite {r : HostReg} {v : Nat} {s t : State} (h : Inv s) (hidle : isIdle s = true)
    (ht : hostWrite r v s = .next t) : Inv t := by
  by_cases hr : r = .cmd
  · rw [Sys2Proof.Machine.hostWrite, if_pos hr] at ht
    split at ht
    · exact h.commandWrite ht
    · cases ht
  · rw [Sys2Proof.Machine.hostWrite, if_neg hr] at ht
    exact h.writeReg hidle ht

theorem Inv.hostMov {s : State} (h : Inv s) (hidle : isIdle s = true) : Inv (hostMov s) := by
  obtain ⟨hwf, hmem, hregs, hscratch, -⟩ := h
  rw [hostMov_eq]
  exact ⟨hwf, hmem, hregs, hscratch, sequencerOk_of_idle (isIdle_iff.1 hidle)⟩

/-! ### Memory accesses of other agents, and reset, keep it -/

theorem Inv.agentStore {a : Nat} {b : Byte} {s t : State} (h : Inv s) (ht : agentStore a b s = .next t) : Inv t := by
  obtain ⟨hwf, hmem, hregs, hscratch, hseq⟩ := h
  have hwf' := agentStore_wf hwf ht
  have hmem' := agentStore_fits hmem ht
  obtain ⟨-, -, rfl⟩ := agentStore_eq_next.1 ht
  exact ⟨hwf', hmem', hregs, hscratch, hseq⟩

theorem Inv.agentLoad {a : Nat} {s t : State} (h : Inv s) (ht : agentLoad a s = .next t) : Inv t := by
  obtain ⟨-, -, rfl⟩ := agentLoad_eq_next.1 ht
  exact h

theorem operandsFit_reset (w : Nat) : OperandsFit w HostRegs.reset :=
  have h : 0 < 2 ^ w := Nat.two_pow_pos w
  ⟨h, h, h, h, h, h, h, h⟩

theorem Inv.resetCore {s : State} (h : Inv s) : Inv (resetCore s) := by
  obtain ⟨hwf, hmem, -, -, -⟩ := h
  exact ⟨hwf, hmem, registersFit_iff.2 ⟨operandsFit_reset _, freeCombiner_fits _ _ _⟩, rfl, sequencerOk_of_idle rfl⟩

/-! ### One pending action, and one step -/

theorem Inv.deliver {e : Event} {s t : State} (h : Inv s) (ht : deliver e s = .next t) : Inv t := by
  cases e with
  | wr r v =>
    by_cases hr : r = .cmd
    · subst hr
      obtain ⟨hidle, ht⟩ := whenIdle_eq_next.1 ht
      exact h.hostWrite hidle ht
    · rw [deliver_wr_of_ne_cmd hr] at ht
      obtain ⟨hidle, ht⟩ := betweenCommands_eq_next.1 ht
      exact h.writeReg hidle ht
  | rd r =>
    obtain ⟨-, ht⟩ := betweenCommands_eq_next.1 ht
    cases ht
    exact h
  | mov =>
    obtain ⟨hidle, ht⟩ := betweenCommands_eq_next.1 ht
    cases ht
    exact h.hostMov hidle
  | issue w => exact h.commandIssue (whenIdle_eq_next.1 ht).2
  | tick => exact h.seqStep ht
  | store a b => exact h.agentStore ht
  | load a => exact h.agentLoad ht
  | reset =>
    cases ht
    exact h.resetCore

theorem Inv.step {s t : State} (h : Inv s) (ht : step s = .next t) : Inv t := by
  cases hev : s.events with
  | nil =>
    rw [step_of_no_event hev] at ht
    exact h.seqStep ht
  | cons e es =>
    rw [step_of_event hev] at ht
    exact Inv.deliver (s := { s with events := es }) h ht

/-! ### The obligations -/

/-- Settles O46: every action of the world outside and every transition of the sequencer keeps the invariant. -/
theorem stepKeepsTheInvariant : Obligations.StepKeepsTheInvariant := fun _ _ => Inv.step

/-- Settles O47: memory is empty at reset, all registers are 0, and no command runs. -/
theorem resetEstablishesTheInvariant : Obligations.ResetEstablishesTheInvariant :=
  ⟨reset_mem_wf, reset_mem_fits _,
    registersFit_iff.2 ⟨operandsFit_reset _, Nat.two_pow_pos _, Nat.two_pow_pos _, Nat.two_pow_pos _, Nat.two_pow_pos _⟩,
    rfl, sequencerOk_of_idle rfl⟩

end Sys2Proof.Machine
end

section
/-! PROOFS. The order of the quarter-rounds, transposition, and BLOCK as a pure function (spec/41_round_network.md R101 to R103,
spec/42_keystream_engine.md R110 to R117). -/

namespace Sys2Proof.Machine

/-! ### The order of the quarter-rounds (R102, R103) -/

/-- Sixteen words are equal when each register holds the same in both. -/
theorem words_ext {x y : Words 16} (h : ∀ i : Fin 16, x[i] = y[i]) : x = y := by
  ext i hi : 1
  exact h ⟨i, hi⟩

/-- Two states that agree on every group of a list whose groups name all registers are equal. -/
theorem eq_of_readGroup_eq {gs : List Group} (hcover : ∀ i : Fin 16, ∃ g ∈ gs, i ∈ g.regs) {x y : Words 16}
    (h : ∀ g ∈ gs, readGroup x g = readGroup y g) : x = y := by
  refine words_ext fun i => ?_
  obtain ⟨g, hg, hmem⟩ := hcover i
  obtain ⟨hp, hq, hr, hs⟩ := Quad.mk.inj (h g hg)
  obtain rfl | rfl | rfl | rfl := Group.mem_regs_iff.1 hmem
  · exact hp
  · exact hq
  · exact hr
  · exact hs

theorem columnGroups_cover : ∀ i : Fin 16, ∃ g ∈ columnGroups, i ∈ g.regs := by decide

theorem rowGroups_cover : ∀ i : Fin 16, ∃ g ∈ rowGroups, i ∈ g.regs := by decide

/-- Groups that share no register and name all of them may be mixed in any order: each is mixed once in either. -/
theorem foldl_applyGroup_of_perm {gs hs : List Group} (hperm : gs.Perm hs) (hnodup : (hs.flatMap Group.regs).Nodup)
    (hcover : ∀ i : Fin 16, ∃ g ∈ hs, i ∈ g.regs) (x : Words 16) : gs.foldl applyGroup x = hs.foldl applyGroup x := by
  have hnodup' : (gs.flatMap Group.regs).Nodup := (hperm.flatMap_right Group.regs).nodup_iff.2 hnodup
  refine eq_of_readGroup_eq hcover fun g hg => ?_
  rw [readGroup_foldl_of_mem hnodup hg, readGroup_foldl_of_mem hnodup' (hperm.mem_iff.2 hg)]

/-! ### Transposition (R101) -/

/-- The place of a register in the transposed matrix. -/
def transposeIndex (i : Fin 16) : Fin 16 := ⟨4 * (i.val % 4) + i.val / 4, by omega⟩

def Group.transpose (g : Group) : Group :=
  ⟨transposeIndex g.p, transposeIndex g.q, transposeIndex g.r, transposeIndex g.s⟩

theorem transposeIndex_transposeIndex (i : Fin 16) : transposeIndex (transposeIndex i) = i := by
  revert i
  decide

theorem transposeIndex_eq_iff {i j : Fin 16} : transposeIndex i = j ↔ i = transposeIndex j :=
  ⟨fun h => h ▸ (transposeIndex_transposeIndex i).symm, fun h => h ▸ transposeIndex_transposeIndex j⟩

theorem getElem_transposeWords_fin (x : Words 16) (i : Fin 16) : (transposeWords x)[i] = x[transposeIndex i] :=
  getElem_transposeWords x i.val i.isLt

/-- A write to the transposed matrix is a write to the transposed place. -/
theorem transposeWords_set (x : Words 16) (i : Fin 16) (w : Word) :
    transposeWords (x.set i w) = (transposeWords x).set (transposeIndex i) w := by
  refine words_ext fun j => ?_
  simp only [getElem_transposeWords_fin, getElem_set_fin, transposeIndex_eq_iff]

theorem transposeWords_transposeWords (x : Words 16) : transposeWords (transposeWords x) = x := by
  refine words_ext fun j => ?_
  simp only [getElem_transposeWords_fin, transposeIndex_transposeIndex]

/-- A quarter-round on a group of the transposed matrix is one on the transposed group. -/
theorem transposeWords_applyGroup (x : Words 16) (g : Group) :
    transposeWords (applyGroup (transposeWords x) g) = applyGroup x g.transpose := by
  simp only [applyGroup, transposeWords_set, getElem_transposeWords_fin, transposeWords_transposeWords, Group.transpose]

theorem transposeWords_foldl_applyGroup (gs : List Group) (x : Words 16) :
    transposeWords (gs.foldl applyGroup (transposeWords x)) = (gs.map Group.transpose).foldl applyGroup x := by
  induction gs generalizing x with
  | nil => exact transposeWords_transposeWords x
  | cons g gs ih =>
    rw [List.foldl_cons, List.map_cons, List.foldl_cons, ← ih, ← transposeWords_applyGroup, transposeWords_transposeWords]

theorem rowGroups_eq_map_transpose : rowGroups = columnGroups.map Group.transpose := by decide

/-! ### Core (R117) -/

theorem doubleRounds_eq_iterate (n : Nat) (x : Words 16) : doubleRounds n x = doubleRound^[n] x := by
  induction n generalizing x with
  | zero => rfl
  | succ n ih => exact ih (doubleRound x)

/-- Zero words mix to zero words. -/
theorem doubleRound_zero : doubleRound (Vector.replicate 16 0) = Vector.replicate 16 0 := by decide +kernel

theorem addWords_zero : addWords (Vector.replicate 16 0) (Vector.replicate 16 0) = Vector.replicate 16 0 := by
  ext i hi : 1
  rw [getElem_addWords, Vector.getElem_replicate]
  rfl

theorem coreWords_zero (r : Nat) : coreWords (Vector.replicate 16 0) r = Vector.replicate 16 0 := by
  rw [coreWords, doubleRounds_eq_iterate, Function.iterate_fixed doubleRound_zero, addWords_zero]

/-! ### BLOCK (R116) -/

/-- The block BLOCK leaves in KS: BLOCK saves what INIT placed, and FEEDFORWARD adds it to what ROUNDS makes of it. -/
theorem block_ks (e : Engine) : (block e).ks = serializeWords (coreWords (initialState e.k e.n e.t) e.rc.toNat) := by
  have hx : (rounds (engineSave (engineInit e))).x = doubleRounds (e.rc.toNat / 2) (initialState e.k e.n e.t) := by
    rw [rounds_eq_iterate, doubleRounds_eq_iterate]
    rfl
  rw [block, ctrInc_ks, serialize_ks, feedforward_x, hx, rounds_j, engineSave_j, engineInit_x, coreWords]

/-- The counter words are the two halves of the counter (R25). -/
theorem counterWords_counterOf (t : Words 2) : counterWords (counterOf t) = t := by
  have hlow : (counterOf t).extractLsb' 0 32 = t[0] := BitVec.extractLsb'_append_eq_right
  have hhigh : (counterOf t).extractLsb' 32 32 = t[1] := BitVec.extractLsb'_append_eq_left
  ext i hi : 1
  match i, hi with
  | 0, _ => exact hlow
  | 1, _ => exact hhigh

theorem counterOf_counterWords (c : Counter) : counterOf (counterWords c) = c := by
  apply BitVec.eq_of_toNat_eq
  rw [toNat_counterOf]
  change (c.extractLsb' 32 32).toNat * 2 ^ 32 + (c.extractLsb' 0 32).toNat = c.toNat
  simp only [BitVec.extractLsb'_toNat, Nat.shiftRight_eq_div_pow]
  bv_omega

/-- On the words of a key and a nonce it is BlockFn of the counter (R117). -/
theorem block_ks_eq_blockFn {e : Engine} {key nonce : List Byte} (hk : e.k = wordsLE 8 key) (hn : e.n = wordsLE 2 nonce) :
    (block e).ks = blockFn key nonce (counterOf e.t) e.rc.toNat := by
  rw [block_ks, hk, hn, blockFn, counterWords_counterOf]

/-! ### The obligations -/

/-- Settles O8: in any order each group is mixed once, undisturbed by the others. -/
theorem quarterRoundsOfARoundCommute : Obligations.QuarterRoundsOfARoundCommute :=
  fun x => ⟨fun _ h => foldl_applyGroup_of_perm h columnGroups_nodup columnGroups_cover x,
    fun _ h => foldl_applyGroup_of_perm h rowGroups_nodup rowGroups_cover x⟩

/-- Settles O9: the row groups are the transposed column groups, and transposing around a quarter-round transposes its group. -/
theorem rowRoundIsTransposedColumnRound : Obligations.RowRoundIsTransposedColumnRound := by
  intro x
  rw [rowRound, columnRound, transposeWords_foldl_applyGroup, rowGroups_eq_map_transpose]

/-- Settles O17: zero is a fixed point of the double-round. -/
theorem coreOfZeroIsZero : Obligations.CoreOfZeroIsZero := coreWords_zero

/-- Settles O16: the keystream words are Core of what INIT placed, and CTRINC alone touches `t`. -/
theorem blockIsBlockFnOfTheCounter : Obligations.BlockIsBlockFnOfTheCounter := by
  intro e key nonce hk hn
  refine ⟨block_ks_eq_blockFn hk hn, ?_, block_k e, block_n e, block_rc e⟩
  rw [block_t, counterOf_nextCounter]

/-- Settles O11: sixteen closed bytes, evaluated. -/
theorem constantsSpellExpand32ByteK : Obligations.ConstantsSpellExpand32ByteK := by
  unfold Obligations.ConstantsSpellExpand32ByteK
  decide

/-- Settles O12: INIT writes `x` alone, with the constants on its diagonal. -/
theorem initPlacesEveryWord : Obligations.InitPlacesEveryWord := fun _ => rfl

/-- Settles O13: SAVE and FEEDFORWARD each write one register file, and FEEDFORWARD's words are the sums of R90. -/
theorem saveCopiesAndFeedforwardAdds : Obligations.SaveCopiesAndFeedforwardAdds := by
  refine fun e => ⟨rfl, rfl, fun i h => ?_⟩
  rw [feedforward_x, getElem_addWords, toNat_add32]

end Sys2Proof.Machine
end

section
/-! PROOFS. The keystream and Combine, and memory as what its bytes read as (spec/42_keystream_engine.md R118,
spec/43_stream_combiner.md R136 to R143, spec/20_memory.md R50 to R58). -/

namespace Sys2Proof.Machine

/-! ### The keystream (R118, R136) -/

/-- Byte `m` of block `q` of the stream. -/
theorem streamByte_block (key nonce : List Byte) (c : Counter) (r q m : Nat) (hm : m < 64) :
    streamByte key nonce c r (64 * q + m) = (blockFn key nonce (c + BitVec.ofNat 64 q) r)[m] := by
  have hdiv : (64 * q + m) / 64 = q := by omega
  have hmod : (64 * q + m) % 64 = m := by omega
  simp only [streamByte, hdiv, hmod]

/-- A stream from block `q` on is the stream of the counter `q` further on. -/
theorem streamByte_skip (key nonce : List Byte) (c : Counter) (r q m : Nat) :
    streamByte key nonce c r (m + 64 * q) = streamByte key nonce (c + BitVec.ofNat 64 q) r m := by
  have hdiv : (m + 64 * q) / 64 = q + m / 64 := by omega
  have hmod : (m + 64 * q) % 64 = m % 64 := by omega
  simp only [streamByte, hdiv, hmod, BitVec.ofNat_add, BitVec.add_assoc]

/-- Combining twice with the same stream restores each byte (R139). -/
theorem combine_combine (input key nonce : List Byte) (c : Counter) (r : Nat) :
    combine (combine input key nonce c r) key nonce c r = input := by
  refine List.ext_getElem (by simp only [length_combine]) fun m _ _ => ?_
  rw [getElem_combine, getElem_combine, BitVec.xor_assoc, BitVec.xor_self, BitVec.xor_zero]

/-- A message of whole blocks takes whole blocks of the stream (R143). -/
theorem combine_append {a : List Byte} {q : Nat} (ha : a.length = 64 * q) (b key nonce : List Byte) (c : Counter) (r : Nat) :
    combine (a ++ b) key nonce c r = combine a key nonce c r ++ combine b key nonce (c + BitVec.ofNat 64 q) r := by
  simp only [combine, List.mapIdx_append, ha, streamByte_skip]

/-! ### Canonical memory is determined by its bytes (R50) -/

theorem wfAbove_cons_iff {low k : Nat} {v : Byte} {rest : Memory} :
    wfAbove low ((k, v) :: rest) = true ↔ low ≤ k ∧ v ≠ Config.unlistedByte ∧ wfAbove (k + 1) rest = true := by
  simp only [wfAbove, Bool.and_eq_true, decide_eq_true_eq, and_assoc]

/-- The first listed byte of a canonical memory, in a memory that reads the same, is not below that memory's first key. -/
theorem key_le_of_read_eq {k k' : Nat} {v v' : Byte} {rest rest' : Memory} (hv : v ≠ Config.unlistedByte)
    (hw' : wfAbove k' ((k', v') :: rest') = true)
    (h : readByte ((k, v) :: rest) k = readByte ((k', v') :: rest') k) : k' ≤ k := by
  by_contra hlt
  rw [readByte_below hw' (Nat.not_le.1 hlt), readByte, if_pos rfl] at h
  exact hv h

theorem eq_of_readByte_eq_above {m m' : Memory} {low low' : Nat} (hw : wfAbove low m = true) (hw' : wfAbove low' m' = true)
    (h : ∀ a, readByte m a = readByte m' a) : m = m' := by
  induction m generalizing m' low low' with
  | nil =>
    cases m' with
    | nil => rfl
    | cons cell' rest' =>
      obtain ⟨k', v'⟩ := cell'
      obtain ⟨-, hv', -⟩ := wfAbove_cons_iff.1 hw'
      have hread := h k'
      rw [readByte, readByte, if_pos rfl] at hread
      exact absurd hread.symm hv'
  | cons cell rest ih =>
    obtain ⟨k, v⟩ := cell
    obtain ⟨-, hv, hrest⟩ := wfAbove_cons_iff.1 hw
    cases m' with
    | nil =>
      have hread := h k
      rw [readByte, readByte, if_pos rfl] at hread
      exact absurd hread hv
    | cons cell' rest' =>
      obtain ⟨k', v'⟩ := cell'
      obtain ⟨-, hv', hrest'⟩ := wfAbove_cons_iff.1 hw'
      have hk : k = k' := Nat.le_antisymm
        (key_le_of_read_eq hv' (wfAbove_cons_iff.2 ⟨le_rfl, hv, hrest⟩) (h k').symm)
        (key_le_of_read_eq hv (wfAbove_cons_iff.2 ⟨le_rfl, hv', hrest'⟩) (h k))
      subst hk
      have hval : v = v' := by
        have hread := h k
        rwa [readByte, readByte, if_pos rfl, if_pos rfl] at hread
      have htail : rest = rest' := ih hrest hrest' fun a => by
        by_cases ha : a = k
        · rw [readByte_below hrest (by omega), readByte_below hrest' (by omega)]
        · have hread := h a
          rwa [readByte, readByte, if_neg ha, if_neg ha] at hread
      rw [hval, htail]

/-- Canonical memories that read the same everywhere are equal. -/
theorem eq_of_readByte_eq {m m' : Memory} (hw : Memory.wf m = true) (hw' : Memory.wf m' = true)
    (h : ∀ a, readByte m a = readByte m' a) : m = m' :=
  eq_of_readByte_eq_above hw hw' h

/-! ### What a written run of bytes reads as (R56, R57) -/

theorem readByte_writeBytes_inside {m : Memory} (hw : Memory.wf m = true) (a : Nat) {bs : List Byte} {i : Nat}
    (hi : i < bs.length) : readByte (writeBytes m a bs) (a + i) = bs[i] := by
  induction bs generalizing m a i with
  | nil => cases hi
  | cons b bs ih =>
    rw [writeBytes]
    cases i with
    | zero =>
      rw [readByte_writeBytes_of_outside _ bs (.inl (by omega))]
      exact readByte_writeByte_same hw a b
    | succ i =>
      have hnext : a + (i + 1) = a + 1 + i := by omega
      rw [hnext, ih (writeByte_wf hw a b) (a + 1) (Nat.lt_of_succ_lt_succ hi), List.getElem_cons_succ]

theorem readBytes_writeBytes_same {m : Memory} (hw : Memory.wf m = true) (a : Nat) (bs : List Byte) :
    readBytes (writeBytes m a bs) a bs.length = bs := by
  refine List.ext_getElem (length_readBytes _ _ _) fun i _ hi => ?_
  rw [getElem_readBytes, readByte_writeBytes_inside hw a hi]

/-- Writing back what a run held before undoes a write of that run. -/
theorem writeBytes_restore {m : Memory} (hw : Memory.wf m = true) (a : Nat) (bs : List Byte) :
    writeBytes (writeBytes m a bs) a (readBytes m a bs.length) = m := by
  have hlen : (readBytes m a bs.length).length = bs.length := length_readBytes m a bs.length
  have hw₁ := writeBytes_wf hw a bs
  refine eq_of_readByte_eq (writeBytes_wf hw₁ a _) hw fun c => ?_
  by_cases hc : c < a ∨ a + bs.length ≤ c
  · rw [readByte_writeBytes_of_outside _ _ (by rwa [hlen]), readByte_writeBytes_of_outside _ _ hc]
  · obtain ⟨i, rfl⟩ : ∃ i, c = a + i := ⟨c - a, by omega⟩
    rw [readByte_writeBytes_inside hw₁ a (by omega), getElem_readBytes]

/-! ### Accesses that stop (R58) -/

/-- A run with an unadmitted byte has a first one. -/
theorem exists_firstUnadmitted {rs : List Region} {addr n m : Nat} (hm : m < n) (h : admits rs (addr + m) = false) :
    ∃ a, firstUnadmitted rs addr n = some a := by
  rw [← Option.ne_none_iff_exists', ne_eq, firstUnadmitted_eq_none]
  intro hall
  rw [hall m hm] at h
  cases h

/-- Below the top an access is stuck at the first unadmitted byte, whatever was to follow. -/
theorem guardAccess_of_firstUnadmitted {α : Type} {w : Nat} {rs : List Region} {addr n a : Nat} (hle : addr + n ≤ 2 ^ w)
    (h : firstUnadmitted rs addr n = some a) (k : Host.Outcome α Fault Refusal) :
    guardAccess w rs addr n k = .fault (.notAdmitted a) := by
  rw [guardAccess, if_neg (Nat.not_lt.2 hle), h]

/-! ### The obligations -/

/-- Settles O33: byte `64 * q + m` of the stream is byte `m` of block `q`. -/
theorem combineUsesSuccessiveBlocks : Obligations.CombineUsesSuccessiveBlocks := by
  intro input key nonce c r q m hm h
  refine ⟨length_combine .., ?_⟩
  rw [List.getElem?_eq_getElem (by rwa [length_combine]), getElem_combine, streamByte_block key nonce c r q m hm]

/-- Settles O34: exclusive or with the same stream byte twice is the identity. -/
theorem combineIsAnInvolution : Obligations.CombineIsAnInvolution := combine_combine

/-- Settles O35: the second part's stream starts as many blocks further on as the first part has. -/
theorem combineContinuesAtBlockBoundaries : Obligations.CombineContinuesAtBlockBoundaries := by
  intro a b key nonce c r ha
  exact combine_append (by omega) b key nonce c r

/-- Settles O53: a written run reads back byte by byte, and both accesses look for the same first unadmitted byte. -/
theorem bytesWrittenAreReadBack : Obligations.BytesWrittenAreReadBack := by
  intro s addr bs hw hle
  refine ⟨fun hadm => ?_, fun m hm hout => ?_⟩
  · have hok : AccessOk s.addrBits s.regions addr bs.length := ⟨hle, hadm⟩
    exact ⟨_, memWrite_of_ok hok, memRead_eq_next.2 ⟨hok, (readBytes_writeBytes_same hw addr bs).symm⟩,
      writeBytes_wf hw addr bs, fun a ha => readByte_writeBytes_of_outside s.mem bs ha, rfl⟩
  · obtain ⟨a, ha⟩ := exists_firstUnadmitted hm hout
    exact ⟨a, guardAccess_of_firstUnadmitted hle ha _, guardAccess_of_firstUnadmitted hle ha _⟩

end Sys2Proof.Machine
end

section
/-! PROOFS. The transitions of the sequencer as checks on addresses followed by one new state (spec/43_stream_combiner.md R128 to
R131). -/

namespace Sys2Proof.Machine

/-! ### Sequencing behind a check -/

/-- What follows an access is behind the access's check. -/
theorem andThen_guardAccess {α β : Type} (w : Nat) (rs : List Region) (addr n : Nat) (k : Host.Outcome α Fault Refusal)
    (f : α → Host.Outcome β Fault Refusal) :
    andThen (guardAccess w rs addr n k) f = guardAccess w rs addr n (andThen k f) := by
  unfold guardAccess
  split
  · rfl
  · split <;> rfl

/-- Two continuations that agree where the first statement goes on give the same sequence. -/
theorem andThen_congr {α β : Type} {o : Host.Outcome α Fault Refusal} {f g : α → Host.Outcome β Fault Refusal}
    (h : ∀ a, o = .next a → f a = g a) : andThen o f = andThen o g := by
  cases o with
  | next a => exact h a rfl
  | fault r => rfl
  | refused r => rfl

/-! ### LATCH (R128) -/

theorem latch_eq (rounds : Nat) (s : State) :
    latch rounds s = guardAccess s.addrBits s.regions s.regs.keyAddr 32
      (guardAccess s.addrBits s.regions s.regs.nonceAddr 8 (.next (latched rounds s))) := by
  simp only [latch, memRead, andThen_guardAccess, andThen_next, Config.keySize, Config.nonceSize]
  rfl

/-- Word `m` of a run read from memory, by the bytes it is made of (R51). -/
theorem getElem_wordsLE_readBytes {n len m : Nat} (mem : Memory) (addr : Nat) (hm : m < n) (hlen : 4 * m + 3 < len) :
    (wordsLE n (readBytes mem addr len))[m] =
      le32 (readByte mem (addr + 4 * m)) (readByte mem (addr + (4 * m + 1))) (readByte mem (addr + (4 * m + 2)))
        (readByte mem (addr + (4 * m + 3))) := by
  rw [getElem_wordsLE, le32At_eq_le32 _ m (by rwa [length_readBytes])]
  simp only [getElem_readBytes]

/-! ### The bytes of a chunk (R130, R131) -/

/-- A run of at most 64 bytes of memory combined with a keystream block. -/
def xorRun (mem : Memory) (a n : Nat) (ks : Block) : List Byte := List.zipWith (· ^^^ ·) (readBytes mem a n) ks.toList

theorem length_xorRun {n : Nat} (mem : Memory) (a : Nat) (ks : Block) (hn : n ≤ 64) : (xorRun mem a n ks).length = n := by
  rw [xorRun, List.length_zipWith, length_readBytes, Vector.length_toList, Nat.min_eq_left hn]

theorem getElem_xorRun {mem : Memory} {a n m : Nat} {ks : Block} (hm : m < (xorRun mem a n ks).length) (hm' : m < 64) :
    (xorRun mem a n ks)[m] = readByte mem (a + m) ^^^ ks[m] := by
  simp only [xorRun, List.getElem_zipWith, getElem_readBytes, Vector.getElem_toList]

/-- The padding of the block past the run takes no part in the bytes that are kept. -/
theorem take_xor64_padBlock {n : Nat} (mem : Memory) (a : Nat) (ks : Block) (hn : n ≤ 64) :
    (xor64 (padBlock (readBytes mem a n)) ks).toList.take n = xorRun mem a n ks := by
  have hlen := length_xorRun mem a ks hn
  refine List.ext_getElem (by rw [hlen, List.length_take, Vector.length_toList, Nat.min_eq_left hn]) fun m _ hm => ?_
  have hmn : m < n := hlen ▸ hm
  rw [getElem_xorRun hm (by omega), List.getElem_take, Vector.getElem_toList, getElem_xor64, getElem_padBlock,
    List.getD_eq_getElem _ _ (by rwa [length_readBytes]), getElem_readBytes]

theorem xorRun_eq_ofFn {n : Nat} (mem : Memory) (a : Nat) (ks : Block) (hn : n ≤ 64) :
    xorRun mem a n ks =
      List.ofFn fun m : Fin n => readByte mem (a + m.val) ^^^ ks[m.val]'(Nat.lt_of_lt_of_le m.isLt hn) := by
  have hlen := length_xorRun mem a ks hn
  refine List.ext_getElem (by rw [hlen, List.length_ofFn]) fun m hm _ => ?_
  rw [getElem_xorRun hm (by omega), List.getElem_ofFn]

theorem fullOutput_eq_xorRun (s : State) : fullOutput s = xorRun s.mem (inAt s) 64 (chunkKeystream s) := by
  rw [fullOutput, ← take_xor64_padBlock _ _ _ le_rfl, List.take_of_length_le (by rw [Vector.length_toList])]

theorem partOutput_eq_xorRun {s : State} (h : remaining s ≤ 64) :
    partOutput s = xorRun s.mem (inAt s) (remaining s) (chunkKeystream s) := by
  rw [partOutput, take_xor64_padBlock _ _ _ h]

/-! ### One chunk as one transition (R129) -/

/-- The bytes of the next chunk: 64, or what is left. -/
def chunkLen (s : State) : Nat := min 64 (remaining s)

/-- What the next chunk leaves (R130, R131). -/
def afterChunk (s : State) : State :=
  { s with
    engine := block s.engine
    mem := writeBytes s.mem (outAt s) (xorRun s.mem (inAt s) (chunkLen s) (chunkKeystream s))
    comb := { s.comb with
      off := s.comb.off + chunkLen s
      scratch := if 64 ≤ remaining s then s.comb.scratch else zeroBlock } }

theorem afterFull_eq_afterChunk {s : State} (h : 64 ≤ remaining s) : afterFull s = afterChunk s := by
  rw [afterFull, afterChunk, fullOutput_eq_xorRun, chunkLen, Nat.min_eq_left h, if_pos h]

theorem afterPart_eq_afterChunk {s : State} (h : remaining s < 64) (hpos : 0 < remaining s) : afterPart s = afterChunk s := by
  have hoff : s.comb.off + remaining s = s.comb.len := by
    unfold remaining at hpos ⊢
    omega
  rw [afterPart, afterChunk, partOutput_eq_xorRun h.le, chunkLen, Nat.min_eq_right h.le, if_neg (Nat.not_le.2 h), hoff]

theorem fullStep_eq (s : State) :
    fullStep s = guardAccess s.addrBits s.regions (inAt s) 64
      (guardAccess s.addrBits s.regions (outAt s) 64 (.next (afterFull s))) := by
  simp only [fullStep, memRead, memWrite, andThen_guardAccess, andThen_next, Config.blockSize, Vector.length_toList,
    afterFull, fullOutput, chunkKeystream, inAt, outAt]

theorem partStep_eq (s : State) :
    partStep s = guardAccess s.addrBits s.regions (inAt s) (remaining s)
      (guardAccess s.addrBits s.regions (outAt s) (partOutput s).length (.next (afterPart s))) := by
  simp only [partStep, memRead, memWrite, andThen_guardAccess, andThen_next, afterPart, partOutput, chunkKeystream, inAt,
    outAt, remaining]

/-- With bytes left, NEXT checks the chunk's input and its output, and then does the chunk (R129). -/
theorem seqStep_chunk {s : State} (hp : s.comb.phase = .run) (h : 0 < remaining s) :
    seqStep s = guardAccess s.addrBits s.regions (inAt s) (chunkLen s)
      (guardAccess s.addrBits s.regions (outAt s) (chunkLen s) (.next (afterChunk s))) := by
  by_cases hfull : 64 ≤ remaining s
  · rw [seqStep_full hp hfull, fullStep_eq, afterFull_eq_afterChunk hfull, chunkLen, Nat.min_eq_left hfull]
  · have hlt := Nat.not_le.1 hfull
    rw [seqStep_part hp hlt h, partStep_eq, length_partOutput hlt.le, afterPart_eq_afterChunk hlt h, chunkLen,
      Nat.min_eq_right hlt.le]

/-- A chunk whose bytes are below the top and admitted goes on. -/
theorem seqStep_chunk_of_ok {s : State} (hp : s.comb.phase = .run) (h : 0 < remaining s)
    (hin : AccessOk s.addrBits s.regions (inAt s) (chunkLen s)) (hout : AccessOk s.addrBits s.regions (outAt s) (chunkLen s)) :
    seqStep s = .next (afterChunk s) := by
  rw [seqStep_chunk hp h, guardAccess_of_ok _ hin, guardAccess_of_ok _ hout]

/-! ### The obligations -/

/-- Settles O42: the step is LATCH, and its words are put together from the bytes of the two buffers. -/
theorem latchLoadsTheCommand : Obligations.LatchLoadsTheCommand := by
  rintro s rounds hev hp ⟨-, hnl, hkl⟩ hkw hnw hk hn
  have hkey : AccessOk s.addrBits s.regions s.regs.keyAddr 32 := by
    rw [Bool.eq_false_iff, ne_eq, wraps_iff, keyBuffer, hkl, Nat.not_lt] at hkw
    rw [BufferAdmitted, keyBuffer, hkl] at hk
    exact ⟨hkw, hk⟩
  have hnonce : AccessOk s.addrBits s.regions s.regs.nonceAddr 8 := by
    rw [Bool.eq_false_iff, ne_eq, wraps_iff, nonceBuffer, hnl, Nat.not_lt] at hnw
    rw [BufferAdmitted, nonceBuffer, hnl] at hn
    exact ⟨hnw, hn⟩
  refine ⟨latched rounds s, ?_, fun m hm => ?_, fun m hm => ?_, counterOf_counterWords _, rfl, rfl⟩
  · rw [step_of_no_event hev, seqStep, hp]
    exact latch_eq_next.2 ⟨hkey, hnonce, rfl⟩
  · exact getElem_wordsLE_readBytes s.mem s.regs.keyAddr hm (by omega)
  · exact getElem_wordsLE_readBytes s.mem s.regs.nonceAddr hm (by omega)

/-- Settles O43: the step is a chunk of 64 bytes. -/
theorem fullStepCombinesOneChunk : Obligations.FullStepCombinesOneChunk := by
  intro s hev hp hrem src dst hsrc hdst hin hout
  rw [step_of_no_event hev, seqStep_full hp hrem]
  refine fullStep_eq_next.2 ⟨⟨hsrc, hin⟩, ⟨hdst, hout⟩, ?_⟩
  rw [afterFull, fullOutput_eq_xorRun, xorRun_eq_ofFn _ _ _ le_rfl]
  rfl

/-- Settles O44: the step is a chunk of the bytes that are left. -/
theorem partStepCombinesTheRemainingBytes : Obligations.PartStepCombinesTheRemainingBytes := by
  intro s hev hp r src dst hpos hr hsrc hdst hin hout
  have hrem : remaining s ≤ 64 := Nat.le_of_lt hr
  have hwrite : AccessOk s.addrBits s.regions (outAt s) (partOutput s).length := by
    rw [length_partOutput hrem]
    exact ⟨hdst, hout⟩
  rw [step_of_no_event hev, seqStep_part hp hr hpos]
  refine partStep_eq_next.2 ⟨⟨hsrc, hin⟩, hwrite, ?_⟩
  rw [afterPart, partOutput_eq_xorRun hrem, xorRun_eq_ofFn _ _ _ hrem]
  rfl

end Sys2Proof.Machine
end

section
/-! PROOFS. A whole command in closed form: the checks it makes, the state it leaves, and its four ways to end
(spec/43_stream_combiner.md R126 to R141). -/

namespace Sys2Proof.Machine

/-! ### The accesses of a command, as checks (R56 to R60) -/

/-- The checks of the chunk loop on `q` chunks that take `len` bytes in all from `ia` to `oa`: each chunk's input and then its
output. -/
def chunkChecks (w : Nat) (rs : List Region) : Nat → Nat → Nat → Nat → Host.Outcome Unit Fault Refusal
  | 0, _, _, _ => .next ()
  | q + 1, ia, oa, len =>
    guardAccess w rs ia (min 64 len) (guardAccess w rs oa (min 64 len)
      (chunkChecks w rs q (ia + min 64 len) (oa + min 64 len) (len - min 64 len)))

/-- The checks of a command, in the order of its accesses: LATCH's two and those of the chunk loop. They read the operand
registers and the parameters alone. -/
def accessChecks (w : Nat) (rs : List Region) (g : HostRegs) : Host.Outcome Unit Fault Refusal :=
  guardAccess w rs g.keyAddr 32 (guardAccess w rs g.nonceAddr 8
    (chunkChecks w rs (blockCount g.inLen) g.inAddr g.outAddr g.inLen))

theorem blockCount_eq_zero {n : Nat} (h : blockCount n = 0) : n = 0 := by
  unfold blockCount at h
  omega

/-- The first chunk of a message is one of its blocks. -/
theorem blockCount_sub {n q : Nat} (h : blockCount n = q + 1) : 0 < n ∧ blockCount (n - min 64 n) = q := by
  unfold blockCount at h ⊢
  omega

theorem lt_of_lt_blockCount {n q : Nat} (h : q < blockCount n) : 64 * q < n := by
  unfold blockCount at h
  omega

theorem le_mul_blockCount (n : Nat) : n ≤ 64 * blockCount n := by
  unfold blockCount
  omega

/-- Below the top the chunk loop's checks pass when all bytes are admitted, and are else stuck at a byte that is not. -/
theorem chunkChecks_cases {w : Nat} {rs : List Region} {q ia oa len : Nat} (hq : blockCount len = q)
    (hin : ia + len ≤ 2 ^ w) (hout : oa + len ≤ 2 ^ w) :
    ((∀ i < len, admits rs (ia + i) = true ∧ admits rs (oa + i) = true) ∧ chunkChecks w rs q ia oa len = .next ()) ∨
    ∃ i < len, ∃ a, (a = ia + i ∨ a = oa + i) ∧ admits rs a = false ∧
      chunkChecks w rs q ia oa len = .fault (.notAdmitted a) := by
  induction q generalizing ia oa len with
  | zero =>
    have hlen := blockCount_eq_zero hq
    exact .inl ⟨fun i hi => by omega, rfl⟩
  | succ q ih =>
    obtain ⟨-, hq'⟩ := blockCount_sub hq
    rw [chunkChecks]
    obtain ⟨⟨-, hadmIn⟩, hgIn⟩ | ⟨i, hi, hno, hg⟩ := guardAccess_cases (rs := rs) (addr := ia) (n := min 64 len)
      (guardAccess w rs oa (min 64 len) (chunkChecks w rs q (ia + min 64 len) (oa + min 64 len) (len - min 64 len)))
      (show ia + min 64 len ≤ 2 ^ w by omega)
    · rw [hgIn]
      obtain ⟨⟨-, hadmOut⟩, hgOut⟩ | ⟨i, hi, hno, hg⟩ := guardAccess_cases (rs := rs) (addr := oa) (n := min 64 len)
        (chunkChecks w rs q (ia + min 64 len) (oa + min 64 len) (len - min 64 len))
        (show oa + min 64 len ≤ 2 ^ w by omega)
      · rw [hgOut]
        obtain ⟨hadm, hnext⟩ | ⟨i, hi, a, ha, hno, hg⟩ := ih hq' (show ia + min 64 len + (len - min 64 len) ≤ 2 ^ w by omega)
          (show oa + min 64 len + (len - min 64 len) ≤ 2 ^ w by omega)
        · refine .inl ⟨fun i hi => ?_, hnext⟩
          by_cases hfirst : i < min 64 len
          · exact ⟨hadmIn i hfirst, hadmOut i hfirst⟩
          · have hrest := hadm (i - min 64 len) (by omega)
            rwa [Nat.add_assoc, Nat.add_assoc, Nat.add_sub_cancel' (Nat.not_lt.1 hfirst)] at hrest
        · exact .inr ⟨min 64 len + i, by omega, a, by omega, hno, hg⟩
      · exact .inr ⟨i, by omega, _, .inr rfl, hno, hg⟩
    · exact .inr ⟨i, by omega, _, .inl rfl, hno, hg⟩

/-! ### A command that ISSUE hands on (R126) -/

/-- VALIDATE and the buffer contract have passed (R59, R61, R127). -/
structure Checked (i : Instr) (s : State) : Prop where
  lengths : ValidLengths s.regs
  rounds : LegalRounds (commandRounds i)
  contract : BuffersInContract s.addrBits s.regs

theorem Checked.validate {i : Instr} {s : State} (h : Checked i s) : validate (commandRounds i) s.regs = none :=
  validate_eq_none.2 ⟨h.lengths, h.rounds⟩

/-- No buffer of a checked command runs past the top (R59). -/
theorem Checked.below_top {i : Instr} {s : State} (h : Checked i s) :
    s.regs.keyAddr + 32 ≤ 2 ^ s.addrBits ∧ s.regs.nonceAddr + 8 ≤ 2 ^ s.addrBits ∧
    s.regs.inAddr + s.regs.inLen ≤ 2 ^ s.addrBits ∧ s.regs.outAddr + s.regs.inLen ≤ 2 ^ s.addrBits := by
  obtain ⟨hol, hnl, hkl⟩ := h.lengths
  obtain ⟨⟨hout, hin, hnonce, hkey⟩, -⟩ := contractBreach_eq_none.1 h.contract
  simp only [Bool.eq_false_iff, ne_eq, wraps_iff, Nat.not_lt, outBuffer, inBuffer, nonceBuffer, keyBuffer, hol, hnl,
    hkl] at hout hin hnonce hkey
  exact ⟨hkey, hnonce, hin, hout⟩

/-- Two buffers that are disjoint and not empty lie one after the other. -/
theorem apart_of_disjoint {b c : Buffer} (h : disjoint b c = true) :
    b.len = 0 ∨ c.len = 0 ∨ b.addr + b.len ≤ c.addr ∨ c.addr + c.len ≤ b.addr := by
  simpa only [disjoint, Bool.or_eq_true, decide_eq_true_eq, or_assoc] using h

/-- Output is written in place or apart from the input (R61). -/
theorem Checked.in_place_or_apart {i : Instr} {s : State} (h : Checked i s) :
    s.regs.outAddr = s.regs.inAddr ∨ s.regs.inLen = 0 ∨ s.regs.outAddr + s.regs.inLen ≤ s.regs.inAddr ∨
      s.regs.inAddr + s.regs.inLen ≤ s.regs.outAddr := by
  obtain ⟨hol, -, -⟩ := h.lengths
  obtain ⟨-, hplace | hdisj, -⟩ := contractBreach_eq_none.1 h.contract
  · exact .inl hplace
  · have hapart := apart_of_disjoint hdisj
    simp only [outBuffer, inBuffer, hol] at hapart
    omega

/-- Output is written apart from key and nonce (R61). -/
theorem Checked.key_nonce_apart {i : Instr} {s : State} (h : Checked i s) :
    (s.regs.inLen = 0 ∨ s.regs.outAddr + s.regs.inLen ≤ s.regs.keyAddr ∨ s.regs.keyAddr + 32 ≤ s.regs.outAddr) ∧
    (s.regs.inLen = 0 ∨ s.regs.outAddr + s.regs.inLen ≤ s.regs.nonceAddr ∨ s.regs.nonceAddr + 8 ≤ s.regs.outAddr) := by
  obtain ⟨hol, hnl, hkl⟩ := h.lengths
  obtain ⟨-, -, hkey, hnonce⟩ := contractBreach_eq_none.1 h.contract
  have hk := apart_of_disjoint hkey
  have hn := apart_of_disjoint hnonce
  simp only [outBuffer, keyBuffer, nonceBuffer, hol, hkl, hnl] at hk hn
  omega

/-- The checks of a checked command pass when its four buffers are admitted, and are else stuck at a byte of one of them. -/
theorem Checked.accessChecks_cases {i : Instr} {s : State} (h : Checked i s) :
    (BuffersAdmitted s ∧ accessChecks s.addrBits s.regions s.regs = .next ()) ∨
    ∃ a, admits s.regions a = false ∧ storeRaces s.regs a = true ∧
      accessChecks s.addrBits s.regions s.regs = .fault (.notAdmitted a) := by
  obtain ⟨hol, hnl, hkl⟩ := h.lengths
  obtain ⟨hkey, hnonce, hin, hout⟩ := h.below_top
  simp only [storeRaces_iff, inside_iff, BuffersAdmitted, BufferAdmitted, keyBuffer, nonceBuffer, inBuffer, outBuffer, hol,
    hnl, hkl]
  rw [accessChecks]
  obtain ⟨⟨-, hadmKey⟩, hg⟩ | ⟨j, hj, hno, hg⟩ := guardAccess_cases (rs := s.regions) (guardAccess s.addrBits s.regions
    s.regs.nonceAddr 8 (chunkChecks s.addrBits s.regions (blockCount s.regs.inLen) s.regs.inAddr s.regs.outAddr
      s.regs.inLen)) hkey
  · rw [hg]
    obtain ⟨⟨-, hadmNonce⟩, hg⟩ | ⟨j, hj, hno, hg⟩ := guardAccess_cases (rs := s.regions) (chunkChecks s.addrBits s.regions
      (blockCount s.regs.inLen) s.regs.inAddr s.regs.outAddr s.regs.inLen) hnonce
    · rw [hg]
      obtain ⟨hadm, hnext⟩ | ⟨j, hj, a, ha, hno, hg⟩ := chunkChecks_cases (rs := s.regions) rfl hin hout
      · exact .inl ⟨⟨hadmKey, hadmNonce, fun j hj => (hadm j hj).1, fun j hj => (hadm j hj).2⟩, hnext⟩
      · exact .inr ⟨a, hno, by omega, hg⟩
    · exact .inr ⟨_, hno, by omega, hg⟩
  · exact .inr ⟨_, hno, by omega, hg⟩

/-- An admitted buffer holds no unadmitted address. -/
theorem admits_of_buffersAdmitted {s : State} (h : BuffersAdmitted s) {a : Nat} (ha : storeRaces s.regs a = true) :
    admits s.regions a = true := by
  have hbuffer : ∀ {b : Buffer}, BufferAdmitted s.regions b → inside b a = true → admits s.regions a = true := by
    intro b hb hin
    obtain ⟨hlow, hhigh⟩ := inside_iff.1 hin
    have hadm := hb (a - b.addr) (by omega)
    rwa [Nat.add_sub_cancel' hlow] at hadm
  obtain ⟨hkey, hnonce, hin, hout⟩ := h
  obtain hk | hn | hi | ho := storeRaces_iff.1 ha
  · exact hbuffer hkey hk
  · exact hbuffer hnonce hn
  · exact hbuffer hin hi
  · exact hbuffer hout ho

/-! ### The chunk loop and the whole command (R126, R129) -/

theorem remaining_afterChunk (s : State) : remaining (afterChunk s) = remaining s - min 64 (remaining s) :=
  (Nat.sub_sub s.comb.len s.comb.off (chunkLen s)).symm

theorem inAt_afterChunk (s : State) : inAt (afterChunk s) = inAt s + min 64 (remaining s) := (Nat.add_assoc _ _ _).symm

theorem outAt_afterChunk (s : State) : outAt (afterChunk s) = outAt s + min 64 (remaining s) := (Nat.add_assoc _ _ _).symm

theorem runSequencer_of_running {s : State} (h : s.comb.phase ≠ .idle) (fuel : Nat) :
    runSequencer (fuel + 1) s = andThen (seqStep s) (runSequencer fuel) := by
  rw [runSequencer, if_neg (by rwa [isIdle_iff])]

/-- The chunk loop is its checks, and then FINISH after as many chunks as there are blocks left. -/
theorem runSequencer_chunks {q fuel : Nat} {s : State} (hp : s.comb.phase = .run) (hq : blockCount (remaining s) = q)
    (hfuel : q < fuel) :
    runSequencer fuel s =
      andThen (chunkChecks s.addrBits s.regions q (inAt s) (outAt s) (remaining s))
        fun _ => .next (finish (afterChunk^[q] s)) := by
  have hbusy : s.comb.phase ≠ .idle := by
    rw [hp]
    nofun
  obtain ⟨fuel, rfl⟩ : ∃ f, fuel = f + 1 := ⟨fuel - 1, by omega⟩
  rw [runSequencer_of_running hbusy]
  induction q generalizing fuel s with
  | zero =>
    rw [seqStep_finish hp (blockCount_eq_zero hq), andThen_next, runSequencer_idle (isIdle_iff.2 rfl)]
    rfl
  | succ q ih =>
    obtain ⟨hpos, hq'⟩ := blockCount_sub hq
    obtain ⟨fuel, rfl⟩ : ∃ f, fuel = f + 1 := ⟨fuel - 1, by omega⟩
    have hrest := ih (s := afterChunk s) hp (by rw [remaining_afterChunk, hq']) hbusy fuel (by omega)
    rw [← runSequencer_of_running (s := afterChunk s) hbusy] at hrest
    rw [seqStep_chunk hp hpos, andThen_guardAccess, andThen_guardAccess, andThen_next, hrest, chunkChecks,
      andThen_guardAccess, andThen_guardAccess, inAt_afterChunk, outAt_afterChunk, remaining_afterChunk]
    rfl

/-- The state ISSUE hands to the sequencer (R126). -/
def issuedState (i : Instr) (s : State) : State :=
  { s with comb := { s.comb with opk := commandKind i, phase := .issued (commandRounds i) } }

/-- The state after LATCH and `q` chunks (R128 to R131). -/
def chunksDone (i : Instr) (s : State) (q : Nat) : State := afterChunk^[q] (latched (commandRounds i) (issuedState i s))

/-- The state a successful command leaves (R132). -/
def completed (i : Instr) (s : State) : State := finish (chunksDone i s (blockCount s.regs.inLen))

theorem Checked.issueCommand {i : Instr} {s : State} (h : Checked i s) (hidle : isIdle s = true) :
    issueCommand (commandKind i) (commandRounds i) s = .next (issuedState i s) :=
  issueCommand_eq_next.2 ⟨hidle, .inr ⟨h.validate, h.contract, rfl⟩⟩

/-- The transitions a command is given are enough for all its chunks (log 25). -/
theorem blockCount_lt_commandSteps (n : Nat) : blockCount n < n / 64 + 2 := by
  unfold blockCount
  omega

/-- A checked command is its accesses' checks and then one new state. -/
theorem Checked.exec_eq {i : Instr} {s : State} (h : Checked i s) (hidle : isIdle s = true) :
    exec i s = andThen (accessChecks s.addrBits s.regions s.regs) fun _ => .next (completed i s) := by
  have hbusy : (issuedState i s).comb.phase ≠ .idle := show Phase.issued (commandRounds i) ≠ .idle from nofun
  have hlatch : seqStep (issuedState i s) = latch (commandRounds i) (issuedState i s) := rfl
  have hloop := runSequencer_chunks (s := latched (commandRounds i) (issuedState i s)) rfl rfl
    (blockCount_lt_commandSteps s.regs.inLen)
  rw [exec_eq_runCommand, runCommand, h.issueCommand hidle, andThen_next, commandSteps, runSequencer_of_running hbusy,
    hlatch, latch_eq, andThen_guardAccess, andThen_guardAccess, andThen_next, hloop, accessChecks, andThen_guardAccess,
    andThen_guardAccess]
  rfl

/-- A command that fails VALIDATE raises what was found (R127, R154). -/
theorem exec_of_invalid {i : Instr} {s : State} {e : Condition} (hidle : isIdle s = true)
    (hv : validate (commandRounds i) s.regs = some e) : exec i s = .next (raiseFromValidate e s) := by
  have hissue : issueCommand (commandKind i) (commandRounds i) s = .next (raiseFromValidate e s) :=
    issueCommand_eq_next.2 ⟨hidle, .inl ⟨e, hv, rfl⟩⟩
  rw [exec_eq_runCommand, runCommand, hissue, andThen_next, runSequencer_idle (s := raiseFromValidate e s) hidle]

/-- A validated command in breach of the contract is refused (R59, R61). -/
theorem exec_of_breach {i : Instr} {s : State} {r : Refusal} (hidle : isIdle s = true)
    (hv : validate (commandRounds i) s.regs = none) (hc : contractBreach s.addrBits s.regs = some r) :
    exec i s = .refused r := by
  rw [exec_eq_runCommand, runCommand, issueCommand, if_pos hidle, hv, hc]
  rfl

/-- The four ways a command on an idle core ends: in an error, refused, completed, or stuck at an unadmitted byte. -/
theorem exec_cases (i : Instr) {s : State} (hidle : isIdle s = true) :
    (∃ e, validate (commandRounds i) s.regs = some e ∧ exec i s = .next (raiseFromValidate e s)) ∨
    (∃ r, validate (commandRounds i) s.regs = none ∧ contractBreach s.addrBits s.regs = some r ∧ exec i s = .refused r) ∨
    (Checked i s ∧ BuffersAdmitted s ∧ exec i s = .next (completed i s)) ∨
    (Checked i s ∧ ∃ a, admits s.regions a = false ∧ storeRaces s.regs a = true ∧ exec i s = .fault (.notAdmitted a)) := by
  cases hv : validate (commandRounds i) s.regs with
  | some e => exact .inl ⟨e, rfl, exec_of_invalid hidle hv⟩
  | none =>
    cases hc : contractBreach s.addrBits s.regs with
    | some r => exact .inr (.inl ⟨r, rfl, rfl, exec_of_breach hidle hv hc⟩)
    | none =>
      obtain ⟨hlens, hrounds⟩ := validate_eq_none.1 hv
      have h : Checked i s := ⟨hlens, hrounds, hc⟩
      rw [h.exec_eq hidle]
      obtain ⟨hadm, hchecks⟩ | ⟨a, hno, hin, hchecks⟩ := h.accessChecks_cases
      · exact .inr (.inr (.inl ⟨h, hadm, by rw [hchecks, andThen_next]⟩))
      · exact .inr (.inr (.inr ⟨h, a, hno, hin, by rw [hchecks, andThen_fault]⟩))

/-- A command goes on to a next state in two ways: it raises an error, or it completes. -/
theorem exec_eq_next {i : Instr} {s t : State} (h : exec i s = .next t) :
    isIdle s = true ∧
      ((∃ e, validate (commandRounds i) s.regs = some e ∧ t = raiseFromValidate e s) ∨
       (Checked i s ∧ BuffersAdmitted s ∧ t = completed i s)) := by
  have hidle : isIdle s = true := by
    by_contra hbusy
    rw [exec_of_running (mt isIdle_iff.2 hbusy)] at h
    cases h
  refine ⟨hidle, ?_⟩
  obtain ⟨e, hv, hexec⟩ | ⟨r, -, -, hexec⟩ | ⟨hc, hadm, hexec⟩ | ⟨-, a, -, -, hexec⟩ := exec_cases i hidle
  all_goals
    rw [hexec] at h
    cases h
  · exact .inl ⟨e, hv, rfl⟩
  · exact .inr ⟨hc, hadm, rfl⟩

/-- A checked command on admitted buffers completes. -/
theorem Checked.exec_of_admitted {i : Instr} {s : State} (h : Checked i s) (hidle : isIdle s = true)
    (hadm : BuffersAdmitted s) : exec i s = .next (completed i s) := by
  rw [h.exec_eq hidle]
  obtain ⟨-, hchecks⟩ | ⟨a, hno, hin, -⟩ := h.accessChecks_cases
  · rw [hchecks, andThen_next]
  · rw [admits_of_buffersAdmitted hadm hin] at hno
    cases hno

end Sys2Proof.Machine
end

section
/-! PROOFS. What a command has done after each chunk, and what it leaves (spec/43_stream_combiner.md R128 to R141). -/

namespace Sys2Proof.Machine

/-- The output of a successful command (R134, R136). -/
def commandOutput (i : Instr) (s : State) : List Byte :=
  combine (inputBytes s) (keyBytes s) (nonceBytes s) s.regs.ctrIn (commandRounds i)

theorem length_commandOutput (i : Instr) (s : State) : (commandOutput i s).length = s.regs.inLen := by
  rw [commandOutput, length_combine, inputBytes, length_readBytes]

/-- The first `q` chunks of the output have 64 bytes each while input is left. -/
theorem length_take_commandOutput {i : Instr} {s : State} {q : Nat} (hq : 64 * q ≤ s.regs.inLen) :
    ((commandOutput i s).take (64 * q)).length = 64 * q := by
  rw [List.length_take, length_commandOutput, Nat.min_eq_left hq]

/-- Where a command that was issued in `s` stands in `u`, after `q` chunks: the counter has moved on by `q`, and of the output
exactly `q` chunks are written. The host's pending actions have no part in it. -/
structure Progress (i : Instr) (s : State) (q : Nat) (u : State) : Prop where
  phase : u.comb.phase = .run
  opk : u.comb.opk = commandKind i
  off : u.comb.off = min (64 * q) s.regs.inLen
  len : u.comb.len = s.regs.inLen
  ia : u.comb.ia = s.regs.inAddr
  oa : u.comb.oa = s.regs.outAddr
  scratch : s.comb.scratch = zeroBlock → u.comb.scratch = zeroBlock
  regs : u.regs = s.regs
  addrBits : u.addrBits = s.addrBits
  regions : u.regions = s.regions
  key : u.engine.k = wordsLE 8 (keyBytes s)
  nonce : u.engine.n = wordsLE 2 (nonceBytes s)
  counter : counterOf u.engine.t = s.regs.ctrIn + BitVec.ofNat 64 q
  rounds : u.engine.rc.toNat = commandRounds i
  mem : u.mem = writeBytes s.mem s.regs.outAddr ((commandOutput i s).take (64 * q))

section
variable {i : Instr} {s u : State} {q : Nat}

/-- LATCH is the beginning (R128). -/
theorem Progress.latched (h : LegalRounds (commandRounds i)) :
    Progress i s 0 (latched (commandRounds i) (issuedState i s)) where
  phase := rfl
  opk := rfl
  off := (Nat.zero_min _).symm
  len := rfl
  ia := rfl
  oa := rfl
  scratch := id
  regs := rfl
  addrBits := rfl
  regions := rfl
  key := rfl
  nonce := rfl
  counter := (counterOf_counterWords _).trans (BitVec.add_zero _).symm
  rounds := toNat_rc_of_legal h
  mem := rfl

/-- Pending actions play no part. -/
theorem Progress.with_events (h : Progress i s q u) (es : List Event) : Progress i s q { u with events := es } :=
  { h with }

theorem Progress.remaining_eq (h : Progress i s q u) : remaining u = s.regs.inLen - 64 * q := by
  rw [remaining, h.len, h.off]
  omega

theorem Progress.inAt_eq (h : Progress i s q u) (hq : 64 * q < s.regs.inLen) : inAt u = s.regs.inAddr + 64 * q := by
  rw [inAt, h.ia, h.off, Nat.min_eq_left hq.le]

theorem Progress.outAt_eq (h : Progress i s q u) (hq : 64 * q < s.regs.inLen) : outAt u = s.regs.outAddr + 64 * q := by
  rw [outAt, h.oa, h.off, Nat.min_eq_left hq.le]

/-- The chunk's keystream block is the one of the counter it has reached (R117, R136). -/
theorem Progress.keystream (h : Progress i s q u) :
    chunkKeystream u =
      blockFn (keyBytes s) (nonceBytes s) (s.regs.ctrIn + BitVec.ofNat 64 q) (commandRounds i) := by
  rw [chunkKeystream, block_ks_eq_blockFn h.key h.nonce, h.counter, h.rounds]

/-- Input that is still to be read is as it was: output is written in place behind it, or apart from it (R61). -/
theorem Progress.input_byte (h : Progress i s q u) (hc : Checked i s) {j : Nat} (hlow : 64 * q ≤ j)
    (hj : j < s.regs.inLen) : readByte u.mem (s.regs.inAddr + j) = readByte s.mem (s.regs.inAddr + j) := by
  have hapart := hc.in_place_or_apart
  rw [h.mem]
  apply readByte_writeBytes_of_outside
  rw [length_take_commandOutput (by omega)]
  omega

/-- The bytes of a chunk are the next 64 bytes of the output, or what is left of it (R136). -/
theorem Progress.chunk_eq (h : Progress i s q u) (hc : Checked i s) (hq : 64 * q < s.regs.inLen) :
    xorRun u.mem (inAt u) (chunkLen u) (chunkKeystream u) = ((commandOutput i s).drop (64 * q)).take 64 := by
  have hlen : chunkLen u = min 64 (s.regs.inLen - 64 * q) := by rw [chunkLen, h.remaining_eq]
  have hrun := length_xorRun u.mem (inAt u) (chunkKeystream u) (show chunkLen u ≤ 64 by omega)
  refine List.ext_getElem ?_ fun m hm _ => ?_
  · rw [hrun, List.length_take, List.length_drop, length_commandOutput, hlen]
  · have hm64 : m < 64 := by omega
    have hinput := h.input_byte hc (Nat.le_add_right (64 * q) m) (by omega)
    rw [getElem_xorRun hm hm64, h.inAt_eq hq, Nat.add_assoc, hinput, List.getElem_take, List.getElem_drop]
    simp only [commandOutput, getElem_combine, inputBytes, getElem_readBytes, streamByte_block _ _ _ _ q m hm64, h.keystream]

/-- A chunk leads from one point of a command to the next. -/
theorem Progress.afterChunk (h : Progress i s q u) (hc : Checked i s) (hq : 64 * q < s.regs.inLen) :
    Progress i s (q + 1) (afterChunk u) where
  phase := h.phase
  opk := h.opk
  off := by
    change u.comb.off + chunkLen u = _
    rw [h.off, chunkLen, h.remaining_eq]
    omega
  len := h.len
  ia := h.ia
  oa := h.oa
  scratch := fun hs => by
    change (if 64 ≤ remaining u then u.comb.scratch else zeroBlock) = zeroBlock
    rw [h.scratch hs, ite_self]
  regs := h.regs
  addrBits := h.addrBits
  regions := h.regions
  key := (block_k u.engine).trans h.key
  nonce := (block_n u.engine).trans h.nonce
  counter := by
    change counterOf (block u.engine).t = _
    rw [block_t, counterOf_nextCounter, h.counter, BitVec.ofNat_add, BitVec.add_assoc]
    rfl
  rounds := by
    change (block u.engine).rc.toNat = _
    rw [block_rc, h.rounds]
  mem := by
    rw [Machine.afterChunk, h.chunk_eq hc hq, h.outAt_eq hq, h.mem, Nat.mul_succ, List.take_add, writeBytes_append,
      length_take_commandOutput hq.le]

/-- After LATCH and `q` chunks a command stands at `q`. -/
theorem Checked.progress (hc : Checked i s) (hq : q ≤ blockCount s.regs.inLen) : Progress i s q (chunksDone i s q) := by
  induction q with
  | zero => exact Progress.latched hc.rounds
  | succ q ih =>
    rw [chunksDone, Function.iterate_succ_apply']
    exact (ih (Nat.le_of_succ_le hq)).afterChunk hc (lt_of_lt_blockCount hq)

end

/-! ### What a successful command leaves (R134, R135) -/

section
variable {i : Instr} {s : State} (hc : Checked i s)
include hc

theorem Checked.completed_mem : (completed i s).mem = outputMemory s (commandRounds i) := by
  have hall : (commandOutput i s).length ≤ 64 * blockCount s.regs.inLen := by
    rw [length_commandOutput]
    exact le_mul_blockCount _
  rw [completed, finish_mem, (hc.progress le_rfl).mem, List.take_of_length_le hall, commandOutput, outputMemory]

theorem Checked.completed_regs :
    (completed i s).regs = { s.regs with
      status := .ok
      ctrOut :=
        if commandKind i = .enc then s.regs.ctrIn + BitVec.ofNat 64 (blockCount s.regs.inLen) else s.regs.ctrOut } := by
  have h := hc.progress le_rfl
  rw [completed, finish_regs, h.opk, h.counter, h.regs]

theorem Checked.completed_ready (hs : s.comb.scratch = zeroBlock) : Ready (completed i s) :=
  ⟨isIdle_iff.2 rfl, (hc.progress le_rfl).scratch hs⟩

theorem Checked.completed_addrBits : (completed i s).addrBits = s.addrBits := (hc.progress le_rfl).addrBits

theorem Checked.completed_regions : (completed i s).regions = s.regions := (hc.progress le_rfl).regions

end

/-- What no chunk changes, no run of chunks changes. -/
theorem iterate_afterChunk_keeps {α : Type} {f : State → α} (h : ∀ u, f (afterChunk u) = f u) (q : Nat) (u : State) :
    f (afterChunk^[q] u) = f u := by
  induction q with
  | zero => rfl
  | succ q ih => rw [Function.iterate_succ_apply', h, ih]

theorem completed_events (i : Instr) (s : State) : (completed i s).events = s.events :=
  iterate_afterChunk_keeps (f := State.events) (fun _ => rfl) _ _

theorem completed_hostRead (i : Instr) (s : State) : (completed i s).hostRead = s.hostRead :=
  iterate_afterChunk_keeps (f := State.hostRead) (fun _ => rfl) _ _

theorem completed_status (i : Instr) (s : State) : (completed i s).regs.status = .ok := rfl

end Sys2Proof.Machine
end

section
/-! PROOFS. ENCRYPT and DECRYPT: what they write, what they report, what they leave alone (spec/43_stream_combiner.md R134 to R138,
spec/60_exceptions.md R150 to R158, spec/70_reset_and_hazards.md R173). -/

namespace Sys2Proof.Machine

/-! ### What VALIDATE raises (R127, R151, R152) -/

theorem validate_eq_some {rounds : Nat} {g : HostRegs} {e : Condition} (h : validate rounds g = some e) :
    (¬ ValidLengths g ∧ e = .invalidLength) ∨ (ValidLengths g ∧ ¬ LegalRounds rounds ∧ e = .invalidParameter) := by
  by_cases hlens : ValidLengths g
  · have hrounds : ¬ LegalRounds rounds := fun hr => by
      rw [validate_eq_none.2 ⟨hlens, hr⟩] at h
      cases h
    rw [validate_of_illegal_rounds hlens hrounds] at h
    cases h
    exact .inr ⟨hlens, hrounds, rfl⟩
  · rw [validate_of_wrong_lengths hlens] at h
    cases h
    exact .inl ⟨hlens, rfl⟩

theorem conditionCode_ne_ok (e : Condition) : conditionCode e ≠ .ok := by
  cases e <;> nofun

/-- The error exit leaves an idle core idle and its scratch buffer as it was (R154). -/
theorem raiseFromValidate_ready {s : State} (h : Ready s) (e : Condition) : Ready (raiseFromValidate e s) := h

/-- Wrong lengths end a command in InvalidLength (R151). -/
theorem exec_of_wrong_lengths (i : Instr) {s : State} (hidle : isIdle s = true) (h : ¬ ValidLengths s.regs) :
    exec i s = .next (raiseFromValidate .invalidLength s) :=
  exec_of_invalid hidle (validate_of_wrong_lengths h)

/-- Right lengths and a wrong round count end it in InvalidParameter (R152). -/
theorem exec_of_illegal_rounds {i : Instr} {s : State} (hidle : isIdle s = true) (h : ValidLengths s.regs)
    (hr : ¬ LegalRounds (commandRounds i)) : exec i s = .next (raiseFromValidate .invalidParameter s) :=
  exec_of_invalid hidle (validate_of_illegal_rounds h hr)

theorem legalRounds_decrypt : LegalRounds (commandRounds .decrypt) := .inl rfl

/-! ### Success of each command (R134, R135) -/

theorem Checked.completed_regs_encrypt {rounds : Nat} {s : State} (h : Checked (.encrypt rounds) s) :
    (completed (.encrypt rounds) s).regs = { s.regs with
      status := .ok
      ctrOut := s.regs.ctrIn + BitVec.ofNat 64 ((s.regs.inLen + 63) / 64) } :=
  h.completed_regs

theorem Checked.completed_regs_decrypt {s : State} (h : Checked .decrypt s) :
    (completed .decrypt s).regs = { s.regs with status := .ok } :=
  h.completed_regs

/-- An empty message is written as no byte (R138). -/
theorem outputMemory_of_empty {s : State} (h : s.regs.inLen = 0) (rounds : Nat) : outputMemory s rounds = s.mem := by
  rw [outputMemory, inputBytes, h]
  rfl

/-! ### Stopping at an unadmitted byte (R58, R168) -/

/-- Where a command is stuck: past VALIDATE and the contract, at an unadmitted byte of one of its buffers. -/
theorem exec_eq_fault {i : Instr} {s : State} {f : Fault} (h : exec i s = .fault f) :
    isIdle s = true ∧ Checked i s ∧
      ∃ a, f = .notAdmitted a ∧ admits s.regions a = false ∧ storeRaces s.regs a = true := by
  have hidle : isIdle s = true := by
    by_contra hbusy
    rw [exec_of_running (mt isIdle_iff.2 hbusy)] at h
    cases h
  obtain ⟨e, -, hexec⟩ | ⟨r, -, -, hexec⟩ | ⟨-, -, hexec⟩ | ⟨hc, a, hno, hin, hexec⟩ := exec_cases i hidle
  all_goals
    rw [hexec] at h
    cases h
  exact ⟨hidle, hc, a, rfl, hno, hin⟩

theorem Checked.exec_of_unadmitted {i : Instr} {s : State} (h : Checked i s) (hidle : isIdle s = true)
    (hadm : ¬ BuffersAdmitted s) : ∃ a, exec i s = .fault (.notAdmitted a) := by
  rw [h.exec_eq hidle]
  obtain ⟨hall, -⟩ | ⟨a, -, -, hchecks⟩ := h.accessChecks_cases
  · exact absurd hall hadm
  · exact ⟨a, by rw [hchecks, andThen_fault]⟩

/-! ### The buffer contract as refusals (R59, R61) -/

/-- A buffer runs past the top (R59). -/
abbrev AnyWraps (w : Nat) (g : HostRegs) : Prop :=
  2 ^ w < g.outAddr + g.outLen ∨ 2 ^ w < g.inAddr + g.inLen ∨ 2 ^ w < g.nonceAddr + g.nonceLen ∨
    2 ^ w < g.keyAddr + g.keyLen

/-- The output buffer overlaps another one as R61 does not allow. -/
abbrev OutputOverlaps (g : HostRegs) : Prop :=
  g.outAddr ≠ g.inAddr ∧ Overlap (outBuffer g) (inBuffer g) ∨ Overlap (outBuffer g) (keyBuffer g) ∨
    Overlap (outBuffer g) (nonceBuffer g)

theorem anyWraps_iff {w : Nat} {g : HostRegs} :
    (wraps w (outBuffer g) || wraps w (inBuffer g) || wraps w (nonceBuffer g) || wraps w (keyBuffer g)) = true ↔
      AnyWraps w g := by
  simp only [Bool.or_eq_true, wraps_iff, or_assoc]
  rfl

/-- The contract is that neither happens. -/
theorem buffersInContract_iff {w : Nat} {g : HostRegs} :
    BuffersInContract w g ↔ ¬ AnyWraps w g ∧ ¬ OutputOverlaps g := by
  rw [BuffersInContract, contractBreach_eq_none, ← anyWraps_iff]
  simp only [disjoint_iff, Bool.or_eq_true, Bool.eq_false_iff]
  tauto

theorem contractBreach_of_wraps {w : Nat} {g : HostRegs} (h : AnyWraps w g) : contractBreach w g = some .bufferWraps := by
  rw [contractBreach, if_pos (anyWraps_iff.2 h)]

/-- A breach that is no wrap is an overlap. -/
theorem contractBreach_of_overlap {w : Nat} {g : HostRegs} (hw : ¬ AnyWraps w g) (ho : OutputOverlaps g) :
    contractBreach w g = some .bufferOverlap := by
  have hbreach : contractBreach w g ≠ none := fun h => (buffersInContract_iff.1 h).2 ho
  rw [contractBreach, if_neg (mt anyWraps_iff.1 hw)] at hbreach ⊢
  exact if_neg fun hplace => hbreach (if_pos hplace)

/-! ### The obligations: success and errors -/

/-- Settles O23: an error is raised by VALIDATE, before anything else; success is the closed form of a command. -/
theorem encryptWritesCombineAndNextCounter : Obligations.EncryptWritesCombineAndNextCounter := by
  rintro rounds s ⟨hidle, hscratch⟩
  refine ⟨fun h => ?lengths, fun h hr => ?rounds, fun h hr hcon hadm => ?success⟩
  case lengths => exact ⟨_, exec_of_wrong_lengths _ hidle h, rfl, rfl, raiseFromValidate_ready ⟨hidle, hscratch⟩ _⟩
  case rounds => exact ⟨_, exec_of_illegal_rounds hidle h hr, rfl, rfl, raiseFromValidate_ready ⟨hidle, hscratch⟩ _⟩
  case success =>
    have hc : Checked (.encrypt rounds) s := ⟨h, hr, hcon⟩
    exact ⟨_, hc.exec_of_admitted hidle hadm, hc.completed_mem, hc.completed_regs_encrypt, hc.completed_ready hscratch⟩

/-- Settles O24: the same with 20 rounds, where FINISH does not write CTR_OUT. -/
theorem decryptWritesCombineAndKeepsCounter : Obligations.DecryptWritesCombineAndKeepsCounter := by
  rintro s ⟨hidle, hscratch⟩
  refine ⟨fun h => ?lengths, fun h hcon hadm => ?success⟩
  case lengths => exact ⟨_, exec_of_wrong_lengths _ hidle h, rfl, rfl, raiseFromValidate_ready ⟨hidle, hscratch⟩ _⟩
  case success =>
    have hc : Checked .decrypt s := ⟨h, legalRounds_decrypt, hcon⟩
    exact ⟨_, hc.exec_of_admitted hidle hadm, hc.completed_mem, hc.completed_regs_decrypt, hc.completed_ready hscratch⟩

/-- Settles O25: a completed command's status is OK, and a raised one's is what VALIDATE found. -/
theorem invalidParameterIsForEncryptOnly : Obligations.InvalidParameterIsForEncryptOnly := by
  refine ⟨fun rounds s t h => ?_, fun s t h => ?_⟩
  · obtain ⟨-, ⟨e, hv, rfl⟩ | ⟨hc, -, rfl⟩⟩ := exec_eq_next h
    · obtain ⟨hlens, rfl⟩ | ⟨hlens, hrounds, rfl⟩ := validate_eq_some hv
      · exact ⟨⟨nofun, fun h => absurd h.1 hlens⟩, nofun⟩
      · exact ⟨⟨fun _ => ⟨hlens, hrounds⟩, fun _ => rfl⟩, fun _ => ⟨rfl, rfl⟩⟩
    · rw [completed_status]
      exact ⟨⟨nofun, fun h => absurd hc.rounds h.2⟩, nofun⟩
  · obtain ⟨-, ⟨e, hv, rfl⟩ | ⟨-, -, rfl⟩⟩ := exec_eq_next h
    · obtain ⟨-, rfl⟩ | ⟨-, hrounds, -⟩ := validate_eq_some hv
      · nofun
      · exact absurd legalRounds_decrypt hrounds
    · rw [completed_status]
      nofun

/-- Settles O27: Decode comes before VALIDATE, VALIDATE's lengths before its rounds, and all before the contract. -/
theorem errorsAreReportedInPriorityOrder : Obligations.ErrorsAreReportedInPriorityOrder := by
  intro s w es hidle hev
  rw [step_of_cmd_write hidle hev]
  refine ⟨fun ⟨why, hd⟩ => ?illegal, fun i hd hlens => ?lengths, fun i hd hlens hrounds => ?rounds⟩
  case illegal => exact ⟨_, commandWrite_of_illegal hd _, rfl⟩
  case lengths =>
    rw [commandWrite_of_instr hd]
    exact ⟨_, exec_of_wrong_lengths (s := storeCmd w { s with events := es }) i hidle hlens, rfl⟩
  case rounds =>
    rw [commandWrite_of_instr hd]
    exact ⟨_, exec_of_illegal_rounds (s := storeCmd w { s with events := es }) hidle hlens hrounds, rfl⟩

/-- Settles O28: a status other than OK is the error exit's. -/
theorem failedCommandHasNoEffectButStatus : Obligations.FailedCommandHasNoEffectButStatus := by
  intro i s t h hstatus
  obtain ⟨-, ⟨e, -, rfl⟩ | ⟨-, -, rfl⟩⟩ := exec_eq_next h
  · exact ⟨rfl, rfl, rfl, rfl, rfl, rfl, rfl, rfl⟩
  · exact absurd (completed_status i s) hstatus

/-- Settles O49: NONCE_LEN is 0 after reset, which is not 8. -/
theorem commandRightAfterResetIsRejected : Obligations.CommandRightAfterResetIsRejected := by
  intro i s hs
  obtain ⟨hidle, hregs⟩ : isIdle s = true ∧ s.regs = HostRegs.reset := by
    obtain rfl | ⟨u, rfl⟩ := hs
    · exact ⟨isIdle_iff.2 rfl, rfl⟩
    · exact ⟨isIdle_iff.2 rfl, rfl⟩
  have hlens : ¬ ValidLengths s.regs := by
    rw [hregs]
    rintro ⟨-, hnonce, -⟩
    cases hnonce
  exact ⟨_, exec_of_wrong_lengths i hidle hlens, rfl, rfl⟩

/-! ### The obligations: frames -/

/-- Settles O29: memory is either kept, or changed by one write of IN_LEN = OUT_LEN bytes at OUT_ADDR. -/
theorem commandsWriteOnlyTheOutputBuffer : Obligations.CommandsWriteOnlyTheOutputBuffer := by
  intro i s t h a ha
  obtain ⟨-, ⟨e, -, rfl⟩ | ⟨hc, -, rfl⟩⟩ := exec_eq_next h
  · rfl
  · obtain ⟨hol, -, -⟩ := hc.lengths
    rw [hc.completed_mem, outputMemory]
    apply readByte_writeBytes_of_outside
    rw [length_combine, inputBytes, length_readBytes]
    omega

/-- Settles O30: the error exit writes STATUS, FINISH writes STATUS and, for ENCRYPT, CTR_OUT. -/
theorem commandsKeepOperandRegisters : Obligations.CommandsKeepOperandRegisters := by
  intro i s t h
  obtain ⟨-, ⟨e, -, rfl⟩ | ⟨hc, -, rfl⟩⟩ := exec_eq_next h
  · exact ⟨rfl, fun _ => rfl, rfl, rfl, rfl, rfl⟩
  · refine ⟨?_, ?_, hc.completed_addrBits, hc.completed_regions, completed_events i s, completed_hostRead i s⟩
    · rw [hc.completed_regs]
    · rintro (rfl | hstatus)
      · rw [hc.completed_regs_decrypt]
      · exact absurd (completed_status i s) hstatus

/-- Settles O31: the error exit leaves both as they were, and FINISH finds the scratch buffer clean. -/
theorem commandsEndIdleWithCleanScratch : Obligations.CommandsEndIdleWithCleanScratch := by
  intro i s t hscratch h
  obtain ⟨hidle, ⟨e, -, rfl⟩ | ⟨hc, -, rfl⟩⟩ := exec_eq_next h
  · exact raiseFromValidate_ready ⟨hidle, hscratch⟩ e
  · exact hc.completed_ready hscratch

/-- Settles O32: an empty message has no block, so the counter and memory stay, and LATCH still reads key and nonce. -/
theorem zeroLengthCommandWritesNothing : Obligations.ZeroLengthCommandWritesNothing := by
  rintro i s ⟨hidle, hscratch⟩ hin hout hnonce hrounds
  refine ⟨fun hkey hcon hadm => ?success, fun hkey hcon hno => ?stuck, fun hkey => ?wrongKey⟩
  case success =>
    have hc : Checked i s := ⟨⟨hout.trans hin.symm, hnonce, hkey⟩, hrounds, hcon⟩
    refine ⟨_, hc.exec_of_admitted hidle hadm, hc.completed_mem.trans (outputMemory_of_empty hin _),
      hc.completed_ready hscratch, ?_⟩
    rw [hc.completed_regs, hin]
    have hctr : s.regs.ctrIn + BitVec.ofNat 64 (blockCount 0) = s.regs.ctrIn := BitVec.add_zero _
    rw [hctr]
    cases i <;> rfl
  case stuck =>
    have hc : Checked i s := ⟨⟨hout.trans hin.symm, hnonce, hkey⟩, hrounds, hcon⟩
    exact hc.exec_of_unadmitted hidle fun ⟨hkeyAdm, hnonceAdm, _⟩ => hno.elim (absurd hkeyAdm) (absurd hnonceAdm)
  case wrongKey =>
    have hlens : ¬ ValidLengths s.regs := fun ⟨_, _, h32⟩ => by
      rw [hkey] at h32
      cases h32
    exact ⟨_, exec_of_wrong_lengths i hidle hlens, rfl, rfl⟩

/-! ### The obligations: where a command stops -/

/-- Settles O38: the checks of a checked command are stuck exactly when a byte of its buffers is not admitted. -/
theorem commandIsStuckExactlyOnUnadmittedBuffers : Obligations.CommandIsStuckExactlyOnUnadmittedBuffers := by
  intro i s
  refine ⟨⟨?_, ?_⟩, fun a h => ?_⟩
  · rintro ⟨a, h⟩
    obtain ⟨hidle, hc, b, -, hno, hin⟩ := exec_eq_fault h
    refine ⟨hidle, hc.lengths, hc.rounds, hc.contract, fun hadm => ?_⟩
    rw [admits_of_buffersAdmitted hadm hin] at hno
    cases hno
  · rintro ⟨hidle, hlens, hrounds, hcon, hadm⟩
    exact Checked.exec_of_unadmitted ⟨hlens, hrounds, hcon⟩ hidle hadm
  · obtain ⟨-, -, b, hb, hno, hin⟩ := exec_eq_fault h
    cases hb
    exact ⟨hno, storeRaces_iff.1 hin⟩

/-- Settles O39: the contract is looked at once, wraps first, and the accesses of a command in contract stay below the top. -/
theorem bufferContractIsRefusedAsStated : Obligations.BufferContractIsRefusedAsStated := by
  intro i s hidle hlens hrounds top wrapping overlapping
  have hval := validate_eq_none.2 ⟨hlens, hrounds⟩
  refine ⟨fun hw => ?wraps, fun hw ho => ?overlaps, fun hw ho r h => ?neither⟩
  case wraps => exact exec_of_breach hidle hval (contractBreach_of_wraps hw)
  case overlaps => exact exec_of_breach hidle hval (contractBreach_of_overlap hw ho)
  case neither =>
    have hc : Checked i s := ⟨hlens, hrounds, buffersInContract_iff.2 ⟨hw, ho⟩⟩
    rw [hc.exec_eq hidle] at h
    obtain ⟨-, hchecks⟩ | ⟨a, -, -, hchecks⟩ := hc.accessChecks_cases
    all_goals
      rw [hchecks] at h
      cases h

end Sys2Proof.Machine
end

section
/-! PROOFS. Commands against each other: twice in place, step by step, cut by a reset, and on cores or memories that differ where
it must not matter (spec/43_stream_combiner.md R139, spec/70_reset_and_hazards.md R170, R188, spec/00_scope.md R11). -/

namespace Sys2Proof.Machine

/-! ### A second command over the first one's output (R61, R139) -/

section
variable {i j : Instr} {s : State}

/-- A completed command leaves the operands of an equal one. -/
theorem Checked.again (hc : Checked i s) (hrounds : commandRounds j = commandRounds i) : Checked j (completed i s) where
  lengths := by
    rw [hc.completed_regs]
    exact hc.lengths
  rounds := hrounds ▸ hc.rounds
  contract := by
    rw [hc.completed_addrBits, hc.completed_regs]
    exact hc.contract

theorem Checked.completed_admitted (hc : Checked i s) (hadm : BuffersAdmitted s) : BuffersAdmitted (completed i s) := by
  unfold BuffersAdmitted
  rw [hc.completed_regions, hc.completed_regs]
  exact hadm

/-- A run that the output does not touch reads the same after a command. -/
theorem Checked.readBytes_completed (hc : Checked i s) {a n : Nat}
    (hapart : s.regs.inLen = 0 ∨ s.regs.outAddr + s.regs.inLen ≤ a ∨ a + n ≤ s.regs.outAddr) :
    readBytes (completed i s).mem a n = readBytes s.mem a n := by
  have hlen := length_commandOutput i s
  rw [hc.completed_mem]
  refine readBytes_congr fun m hm => readByte_writeBytes_of_outside s.mem (commandOutput i s) ?_
  omega

theorem Checked.keyBytes_completed (hc : Checked i s) : keyBytes (completed i s) = keyBytes s := by
  rw [keyBytes, hc.completed_regs]
  exact hc.readBytes_completed hc.key_nonce_apart.1

theorem Checked.nonceBytes_completed (hc : Checked i s) : nonceBytes (completed i s) = nonceBytes s := by
  rw [nonceBytes, hc.completed_regs]
  exact hc.readBytes_completed hc.key_nonce_apart.2

/-- In place the second command's input is the first one's output. -/
theorem Checked.inputBytes_completed (hc : Checked i s) (hplace : s.regs.outAddr = s.regs.inAddr)
    (hwf : Memory.wf s.mem = true) : inputBytes (completed i s) = commandOutput i s := by
  have hread := readBytes_writeBytes_same hwf s.regs.outAddr (commandOutput i s)
  rw [length_commandOutput, hplace] at hread
  rw [inputBytes, hc.completed_mem, hc.completed_regs, outputMemory, hplace]
  exact hread

/-- In place a second command with the same round count restores memory: it combines with the same stream. -/
theorem Checked.again_restores (hc : Checked i s) (hrounds : commandRounds j = commandRounds i)
    (hplace : s.regs.outAddr = s.regs.inAddr) (hwf : Memory.wf s.mem = true) :
    (completed j (completed i s)).mem = s.mem := by
  have hctr : (completed i s).regs.ctrIn = s.regs.ctrIn := by rw [hc.completed_regs]
  have hout : (completed i s).regs.outAddr = s.regs.inAddr := by rw [hc.completed_regs, hplace]
  have hrestore := writeBytes_restore hwf s.regs.outAddr (commandOutput i s)
  rw [length_commandOutput, hplace] at hrestore
  rw [(hc.again hrounds).completed_mem, outputMemory, hc.inputBytes_completed hplace hwf, hc.keyBytes_completed,
    hc.nonceBytes_completed, hctr, hrounds, commandOutput, combine_combine, hout, hc.completed_mem, outputMemory, hplace]
  exact hrestore

end

/-! ### The run step by step (R126, R188) -/

/-- A transition of the sequencer takes no pending action. -/
theorem seqStep_events {s t : State} (h : seqStep s = .next t) : t.events = s.events := by
  obtain ⟨-, rfl⟩ | ⟨rounds, -, hl⟩ | ⟨-, -, hf⟩ | ⟨-, -, -, hp⟩ | ⟨-, -, rfl⟩ := seqStep_cases h
  · rfl
  · obtain ⟨-, -, rfl⟩ := latch_eq_next.1 hl
    rfl
  · obtain ⟨-, -, rfl⟩ := fullStep_eq_next.1 hf
    rfl
  · obtain ⟨-, -, rfl⟩ := partStep_eq_next.1 hp
    rfl
  · rfl

theorem issueCommand_events {kind : CmdKind} {rounds : Nat} {s t : State} (h : issueCommand kind rounds s = .next t) :
    t.events = s.events := by
  obtain ⟨-, ⟨e, -, rfl⟩ | ⟨-, -, rfl⟩⟩ := issueCommand_eq_next.1 h
  · rfl
  · rfl

/-- With nothing pending a run of the machine is a run of the sequencer. -/
theorem core_run_eq_runSequencer {s : State} (hev : s.events = []) (n : Nat) :
    Host.Core.run Sys2Proof.core n s = runSequencer n s := by
  induction n generalizing s with
  | zero => rfl
  | succ n ih =>
    have hrun : Host.Core.run Sys2Proof.core (n + 1) s = andThen (seqStep s) (runSequencer n) := by
      rw [← step_of_no_event hev]
      refine (core_run_succ n s).trans (andThen_congr fun t ht => ih ?_)
      rw [step_of_no_event hev] at ht
      exact (seqStep_events ht).trans hev
    rw [hrun]
    by_cases hp : s.comb.phase = .idle
    · have hidle := isIdle_iff.2 hp
      rw [runSequencer_idle hidle, seqStep, hp]
      exact runSequencer_idle hidle n
    · rw [runSequencer_of_running hp]

/-- A pending ISSUE on an idle core is ISSUE alone (R126). -/
theorem step_of_issue {s : State} {w : Word} {es : List Event} (hidle : isIdle s = true) (hev : s.events = .issue w :: es) :
    step s = commandIssue w { s with events := es } := by
  rw [step_of_event hev]
  exact whenIdle_of_idle (s := { s with events := es }) hidle _

/-! ### A reset after `q` chunks (R170) -/

/-- While nothing else arrives the sequencer goes on (R188). -/
theorem step_of_tick {s : State} {es : List Event} (hev : s.events = .tick :: es) :
    step s = seqStep { s with events := es } :=
  step_of_event hev

section
variable {i : Instr} {s u : State} {q : Nat}

/-- The first tick of a checked command on admitted buffers is LATCH. -/
theorem Checked.step_latch {es : List Event} (hc : Checked i s) (hadm : BuffersAdmitted s) (hev : s.events = .tick :: es) :
    ∃ u : State, step (issuedState i s) = .next u ∧ Progress i s 0 u ∧ u.events = es := by
  obtain ⟨-, hnl, hkl⟩ := hc.lengths
  obtain ⟨hkey, hnonce, -, -⟩ := hc.below_top
  obtain ⟨hadmKey, hadmNonce, -, -⟩ := hadm
  rw [BufferAdmitted, keyBuffer, hkl] at hadmKey
  rw [BufferAdmitted, nonceBuffer, hnl] at hadmNonce
  refine ⟨_, ?_, (Progress.latched hc.rounds).with_events es, rfl⟩
  rw [step_of_tick (s := issuedState i s) hev]
  exact latch_eq_next.2 ⟨⟨hkey, hadmKey⟩, ⟨hnonce, hadmNonce⟩, rfl⟩

/-- Each chunk of a checked command on admitted buffers goes on. -/
theorem Progress.seqStep (h : Progress i s q u) (hc : Checked i s) (hadm : BuffersAdmitted s)
    (hq : 64 * q < s.regs.inLen) : seqStep u = .next (Machine.afterChunk u) := by
  obtain ⟨hol, -, -⟩ := hc.lengths
  obtain ⟨-, -, hin, hout⟩ := hc.below_top
  obtain ⟨-, -, hadmIn, hadmOut⟩ := hadm
  rw [BufferAdmitted, inBuffer] at hadmIn
  rw [BufferAdmitted, outBuffer, hol] at hadmOut
  have hrem := h.remaining_eq
  refine seqStep_chunk_of_ok h.phase (by omega) ?_ ?_
  · rw [h.inAt_eq hq, h.addrBits, h.regions, chunkLen, hrem]
    refine ⟨by omega, fun m hm => ?_⟩
    rw [Nat.add_assoc]
    exact hadmIn (64 * q + m) (show 64 * q + m < s.regs.inLen by omega)
  · rw [h.outAt_eq hq, h.addrBits, h.regions, chunkLen, hrem]
    refine ⟨by omega, fun m hm => ?_⟩
    rw [Nat.add_assoc]
    exact hadmOut (64 * q + m) (show 64 * q + m < s.regs.inLen by omega)

/-- `n` ticks are `n` chunks. -/
theorem Progress.run_ticks {n : Nat} {es : List Event} (h : Progress i s q u) (hc : Checked i s) (hadm : BuffersAdmitted s)
    (hn : q + n ≤ blockCount s.regs.inLen) (hev : u.events = List.replicate n .tick ++ es) (k : Nat) :
    ∃ v : State, Host.Core.run Sys2Proof.core (n + k) u = Host.Core.run Sys2Proof.core k v ∧
      Progress i s (q + n) v ∧ v.events = es := by
  induction n generalizing q u with
  | zero => exact ⟨u, by rw [Nat.zero_add], h, hev⟩
  | succ n ih =>
    have hq : 64 * q < s.regs.inLen := lt_of_lt_blockCount (by omega)
    have hrest := h.with_events (List.replicate n .tick ++ es)
    have hstep := (step_of_tick hev).trans (hrest.seqStep hc hadm hq)
    obtain ⟨v, hrun, hv, hves⟩ := ih (hrest.afterChunk hc hq) (by omega) rfl
    rw [Nat.succ_add, core_run_of_next hstep]
    exact ⟨v, hrun, by rwa [Nat.add_right_comm] at hv, hves⟩

/-- A reset after LATCH and `q` chunks leaves these chunks in memory, and no register of the command. -/
theorem Checked.run_until_reset (hc : Checked i s) (hadm : BuffersAdmitted s) (hq : q ≤ blockCount s.regs.inLen)
    (hev : s.events = List.replicate (q + 1) .tick ++ [.reset]) :
    ∃ t : State, Host.Core.run Sys2Proof.core (q + 2) (issuedState i s) = .next t ∧ Ready t ∧ t.regs = HostRegs.reset ∧
      t.mem = writeBytes s.mem s.regs.outAddr ((commandOutput i s).take (64 * q)) := by
  obtain ⟨u, hlatch, hu, hues⟩ := hc.step_latch hadm hev
  obtain ⟨v, hrun, hv, hves⟩ := hu.run_ticks hc hadm (by rwa [Nat.zero_add]) hues 1
  rw [Nat.zero_add] at hv
  refine ⟨resetCore { v with events := [] }, ?_, resetCore_ready _, rfl, hv.mem⟩
  rw [core_run_of_next hlatch, hrun, core_run_one]
  exact step_of_reset hves

end

/-! ### Two runs that end alike (R11, R44) -/

/-- Two outcomes with the same host-visible registers and memory, the same fault, or the same refusal. -/
def EndAlike (o o' : Host.Outcome State Fault Refusal) : Prop :=
  (∀ t, o = .next t → ∃ v, o' = .next v ∧ v.regs = t.regs ∧ v.mem = t.mem) ∧
  (∀ f, o = .fault f → o' = .fault f) ∧ (∀ r, o = .refused r → o' = .refused r)

theorem EndAlike.next {t v : State} (hregs : v.regs = t.regs) (hmem : v.mem = t.mem) : EndAlike (.next t) (.next v) :=
  ⟨fun _ h => ⟨v, rfl, Host.Outcome.next.inj h ▸ hregs, Host.Outcome.next.inj h ▸ hmem⟩, nofun, nofun⟩

theorem EndAlike.fault (f : Fault) : EndAlike (.fault f) (.fault f) := ⟨fun _ h => (nomatch h), fun _ h => h, nofun⟩

theorem EndAlike.refused (r : Refusal) : EndAlike (.refused r) (.refused r) := ⟨fun _ h => (nomatch h), nofun, fun _ h => h⟩

section
variable {i : Instr} {s u : State}

/-- Whether a command is checked reads the operand registers and ADDR_BITS alone. -/
theorem Checked.of_regs_eq (hc : Checked i s) (hregs : s.regs = u.regs) (hbits : s.addrBits = u.addrBits) : Checked i u :=
  ⟨hregs ▸ hc.lengths, hc.rounds, hregs ▸ hbits ▸ hc.contract⟩

theorem buffersAdmitted_of_regs_eq (h : BuffersAdmitted s) (hregs : s.regs = u.regs) (hregions : s.regions = u.regions) :
    BuffersAdmitted u := by
  unfold BuffersAdmitted at h ⊢
  rwa [← hregs, ← hregions]

theorem Checked.completed_regs_eq (hc : Checked i s) (hc' : Checked i u) (hregs : s.regs = u.regs) :
    (completed i u).regs = (completed i s).regs := by
  rw [hc.completed_regs, hc'.completed_regs, hregs]

/-- What a command does depends on registers, memory and the parameters alone. -/
theorem exec_endAlike (hs : isIdle s = true) (hu : isIdle u = true) (hregs : s.regs = u.regs) (hmem : s.mem = u.mem)
    (hbits : s.addrBits = u.addrBits) (hregions : s.regions = u.regions) : EndAlike (exec i s) (exec i u) := by
  cases hv : validate (commandRounds i) s.regs with
  | some e =>
    rw [exec_of_invalid hs hv, exec_of_invalid hu (hregs ▸ hv)]
    exact EndAlike.next (by rw [raiseFromValidate_regs, raiseFromValidate_regs, hregs]) hmem.symm
  | none =>
    cases hb : contractBreach s.addrBits s.regs with
    | some r =>
      rw [exec_of_breach hs hv hb, exec_of_breach hu (hregs ▸ hv) (hregs ▸ hbits ▸ hb)]
      exact EndAlike.refused r
    | none =>
      obtain ⟨hlens, hrounds⟩ := validate_eq_none.1 hv
      have hc : Checked i s := ⟨hlens, hrounds, hb⟩
      have hc' := hc.of_regs_eq hregs hbits
      rw [hc.exec_eq hs, hc'.exec_eq hu, ← hregs, ← hbits, ← hregions]
      cases accessChecks s.addrBits s.regions s.regs with
      | next x =>
        refine EndAlike.next (hc.completed_regs_eq hc' hregs) ?_
        rw [hc.completed_mem, hc'.completed_mem]
        simp only [outputMemory, inputBytes, keyBytes, nonceBytes, hregs, hmem]
      | fault f => exact EndAlike.fault f
      | refused r => exact EndAlike.refused r

/-- Two memories that agree on the buffers a command reads give it the same output. -/
theorem Checked.commandOutput_eq (hc : Checked i s) (hregs : s.regs = u.regs)
    (hread : ∀ a, inside (keyBuffer s.regs) a = true ∨ inside (nonceBuffer s.regs) a = true ∨
      inside (inBuffer s.regs) a = true → readByte s.mem a = readByte u.mem a) : commandOutput i s = commandOutput i u := by
  obtain ⟨-, hnl, hkl⟩ := hc.lengths
  simp only [inside_iff, keyBuffer, nonceBuffer, inBuffer, hkl, hnl] at hread
  have hkey : keyBytes s = keyBytes u := by
    rw [keyBytes, keyBytes, ← hregs]
    exact readBytes_congr fun m hm => hread _ (by omega)
  have hnonce : nonceBytes s = nonceBytes u := by
    rw [nonceBytes, nonceBytes, ← hregs]
    exact readBytes_congr fun m hm => hread _ (by omega)
  have hinput : inputBytes s = inputBytes u := by
    rw [inputBytes, inputBytes, ← hregs]
    exact readBytes_congr fun m hm => hread _ (by omega)
  rw [commandOutput, commandOutput, hkey, hnonce, hinput, hregs]

/-- A completed command's output buffer holds its output. -/
theorem Checked.readByte_completed (hc : Checked i s) (hwf : Memory.wf s.mem = true) {m : Nat} (hm : m < s.regs.inLen) :
    readByte (completed i s).mem (s.regs.outAddr + m) = (commandOutput i s).getD m 0 := by
  have hlen : m < (commandOutput i s).length := (length_commandOutput i s).symm ▸ hm
  rw [hc.completed_mem, List.getD_eq_getElem _ _ hlen]
  exact readByte_writeBytes_inside hwf s.regs.outAddr hlen

end

/-! ### The obligations -/

/-- Settles O36: the second ENCRYPT reads the same operands and combines its input with the same stream. -/
theorem encryptTwiceInPlaceRestoresMemory : Obligations.EncryptTwiceInPlaceRestoresMemory := by
  rintro rounds s ⟨⟨hidle, -⟩, hlens, hcon, hadm⟩ hrounds hplace hwf
  have hc : Checked (.encrypt rounds) s := ⟨hlens, hrounds, hcon⟩
  have hc' : Checked (.encrypt rounds) (completed (.encrypt rounds) s) := hc.again rfl
  refine ⟨_, _, hc.exec_of_admitted hidle hadm, hc'.exec_of_admitted (isIdle_iff.2 rfl) (hc.completed_admitted hadm),
    hc.again_restores rfl hplace hwf, ?_⟩
  rw [hc'.completed_regs_encrypt, hc.completed_regs_encrypt]

/-- Settles O37: DECRYPT has 20 rounds, so it combines with the stream of that ENCRYPT. -/
theorem decryptUndoesTwentyRoundEncrypt : Obligations.DecryptUndoesTwentyRoundEncrypt := by
  rintro s ⟨⟨hidle, -⟩, hlens, hcon, hadm⟩ hplace hwf
  have hc : Checked (.encrypt 20) s := ⟨hlens, .inl rfl, hcon⟩
  have hc' : Checked .decrypt (completed (.encrypt 20) s) := hc.again rfl
  exact ⟨_, _, hc.exec_of_admitted hidle hadm, hc'.exec_of_admitted (isIdle_iff.2 rfl) (hc.completed_admitted hadm),
    hc.again_restores rfl hplace hwf⟩

/-- Settles O41: after ISSUE nothing is pending, so the machine's steps are the sequencer's. -/
theorem stepByStepRunEqualsOneStepRun : Obligations.StepByStepRunEqualsOneStepRun := by
  intro s w hidle
  have hissue := step_of_issue (s := { s with events := [.issue w] }) (w := w) (es := []) hidle rfl
  rw [step_of_cmd_write (s := { s with events := [.wr .cmd w.toNat] }) (w := w) (es := []) hidle rfl]
  refine (core_run_succ _ _).trans ?_
  cases hd : decode w with
  | illegal why =>
    rw [commandIssue_of_illegal hd] at hissue
    rw [hissue, commandWrite_of_illegal hd]
    refine (core_run_eq_runSequencer rfl _).trans ?_
    exact runSequencer_idle (s := raiseCondition .illegalCommand (storeCmd w { s with events := [] })) hidle _
  | instr i =>
    rw [commandIssue_of_instr hd] at hissue
    rw [hissue, commandWrite_of_instr hd, exec_eq_runCommand]
    exact andThen_congr fun t ht => core_run_eq_runSequencer (issueCommand_events ht) _

/-- Settles O50: ISSUE, LATCH and `q` chunks leave `q` chunks written, and a reset does not touch memory. -/
theorem resetDuringCommandLeavesWholeChunks : Obligations.ResetDuringCommandLeavesWholeChunks := by
  rintro s w i q ⟨⟨hidle, -⟩, hlens, hcon, hadm⟩ hd hrounds hq hev
  have hc : Checked i (storeCmd w { s with events := List.replicate (q + 1) .tick ++ [.reset] }) := ⟨hlens, hrounds, hcon⟩
  have hissue := step_of_issue hidle hev
  rw [commandIssue_of_instr hd, hc.issueCommand hidle] at hissue
  rw [core_run_of_next hissue]
  exact hc.run_until_reset hadm hq rfl

/-- Settles O51: the checks and the result of a command are functions of registers, memory and the parameters. -/
theorem commandsIgnoreInternalRegisters : Obligations.CommandsIgnoreInternalRegisters :=
  fun _ _ _ hs hu hregs hmem hbits hregions => exec_endAlike hs hu hregs hmem hbits hregions

/-- Settles O52: key, nonce and input are all of memory that the output is made of. -/
theorem outputDependsOnlyOnTheReadBuffers : Obligations.OutputDependsOnlyOnTheReadBuffers := by
  intro i s u hu hregs hbits hregions hwf hwf' hread t h
  obtain ⟨-, ⟨e, hv, rfl⟩ | ⟨hc, hadm, rfl⟩⟩ := exec_eq_next h
  · refine ⟨_, exec_of_invalid hu (hregs ▸ hv), ?_, fun hok => absurd hok (conditionCode_ne_ok e)⟩
    rw [raiseFromValidate_regs, raiseFromValidate_regs, hregs]
  · have hc' := hc.of_regs_eq hregs hbits
    refine ⟨_, hc'.exec_of_admitted hu (buffersAdmitted_of_regs_eq hadm hregs hregions), hc.completed_regs_eq hc' hregs,
      fun _ a ha => ?_⟩
    obtain ⟨hol, -, -⟩ := hc.lengths
    obtain ⟨hlow, hhigh⟩ := inside_iff.1 ha
    simp only [outBuffer, hol] at hlow hhigh
    obtain ⟨m, rfl⟩ : ∃ m, a = s.regs.outAddr + m := ⟨a - s.regs.outAddr, by omega⟩
    have hm : m < s.regs.inLen := by omega
    have hm' : m < u.regs.inLen := hregs ▸ hm
    rw [hc.readByte_completed hwf hm, hregs, hc'.readByte_completed hwf' hm', hc.commandOutput_eq hregs hread]

end Sys2Proof.Machine
end
